-- ==== Sys2Proof/Word.lean ====
section
/-! DEFINITION. The machine's two word widths: the 8-bit value of registers, ALU and data cells, and the
16-bit instruction word (00_scope.md R5 and R6; 10_state.md R10, R22, R23; 30_encoding.md R50). -/

namespace Sys2Proof

/-- One register, ALU operand or data-memory cell: an unsigned 8-bit value (R5, R6). -/
abbrev Byte := BitVec 8

/-- One instruction-memory word: 16 bits, bit 15 the most significant (R6, R50). -/
abbrev Word := BitVec 16

end Sys2Proof
end

