-- ==== Sys2Proof/Syntax.lean ====
section
/-! DEFINITION. The instruction set as syntax: the four registers, the eight mnemonics, and one
constructor of `Instr` per row of spec/opcode_table.json (30_encoding.md R51, R53, R57). -/

namespace Sys2Proof

/-- The four general registers, indexed 0 to 3 (10_state.md R10). None is hardwired (R11). -/
inductive Reg where
  | r0 | r1 | r2 | r3
deriving DecidableEq, Repr

/-- The eight mnemonics the control table is keyed by (30_encoding.md R56, 40_alu_control_decoder.md R76). -/
inductive Mnemonic where
  | add | addi | or | sub | beq | lw | sw | j
deriving DecidableEq, Repr

/-- An instruction word by class, one constructor per row of the opcode table.
Operand names are the spec's: `rs` bits 11:10, `rt` bits 9:8, `rd` bits 7:6, `imm` bits 7:0 (R51).
The bits that R53 marks as ignored are kept as the field `ignored`, so that no bit of a word is lost;
no meaning reads them. -/
inductive Instr where
  /-- `ADD rd, rs, rt` (42_reg_reg.md R130); bits 5:0 ignored. -/
  | add (rs rt rd : Reg) (ignored : BitVec 6)
  /-- `ADDI rt, rs, imm` (43_reg_imm.md R140). -/
  | addi (rs rt : Reg) (imm : Byte)
  /-- `OR rd, rs, rt` (42_reg_reg.md R131); bits 5:0 ignored. -/
  | or (rs rt rd : Reg) (ignored : BitVec 6)
  /-- `SUB rd, rs, rt` (42_reg_reg.md R132); bits 5:0 ignored. -/
  | sub (rs rt rd : Reg) (ignored : BitVec 6)
  /-- `BEQ rs, rt` (45_branch_jump_end.md R160); bits 7:0 ignored. -/
  | beq (rs rt : Reg) (ignored : BitVec 8)
  /-- `LW rt, imm(rs)` (44_load_store.md R150). -/
  | lw (rs rt : Reg) (imm : Byte)
  /-- `SW rt, imm(rs)` (44_load_store.md R152). -/
  | sw (rs rt : Reg) (imm : Byte)
  /-- `J` (45_branch_jump_end.md R162); bits 11:0 ignored. -/
  | j (ignored : BitVec 12)
  /-- The end-of-program word `0xFFFF`, the table's row END (45_branch_jump_end.md R164). -/
  | sentinel
deriving DecidableEq, Repr

/-- The mnemonic an instruction is looked up under; the sentinel has none, since it is recognised as a
whole word before any decoding (R58, R65). -/
def Instr.mnemonic? : Instr → Option Mnemonic
  | .add .. => some .add
  | .addi .. => some .addi
  | .or .. => some .or
  | .sub .. => some .sub
  | .beq .. => some .beq
  | .lw .. => some .lw
  | .sw .. => some .sw
  | .j .. => some .j
  | .sentinel => none

/-- The register an instruction writes, if any (10_state.md R13): `rd` for ADD, OR and SUB, `rt` for ADDI
and LW, none for SW, BEQ, J and the sentinel. -/
def Instr.destination? : Instr → Option Reg
  | .add _ _ rd _ => some rd
  | .addi _ rt _ => some rt
  | .or _ _ rd _ => some rd
  | .sub _ _ rd _ => some rd
  | .beq .. => none
  | .lw _ rt _ => some rt
  | .sw .. => none
  | .j .. => none
  | .sentinel => none

end Sys2Proof
end

