-- ==== Sys2Proof/Config.lean ====
section
/-! DEFINITION. What an implementation fixes and the spec leaves open: the type of the parameter OPCODE_MAP,
the type of the parameter ON_UNDEFINED_OPCODE, and the free values of the ALU under the operation NONE
(00_scope.md R5; 92_eei_decisions.md D1, D2, D8). The VALUES the model runs with stand in Decode.lean
(`defaultOpcodeMap`) and Machine/Params.lean, which gathers the open parameters in one argument of the machine. -/

namespace Sys2Proof

/-- OPCODE_MAP: the 4-bit number of each of the eight mnemonics (30_encoding.md R56). -/
structure OpcodeMap where
  add  : BitVec 4
  addi : BitVec 4
  or   : BitVec 4
  sub  : BitVec 4
  beq  : BitVec 4
  lw   : BitVec 4
  sw   : BitVec 4
  j    : BitVec 4
deriving DecidableEq, Repr

/-- ON_UNDEFINED_OPCODE: what the run does after an undefined opcode (60_exceptions.md R172). -/
inductive OnUndefinedOpcode where
  /-- The run stops with the error (the spec's choice, 92_eei_decisions.md D2). -/
  | halt
  /-- The word is skipped and the run goes on (the alternative R172 describes). -/
  | skip
deriving DecidableEq, Repr

/-- FREE VALUE (notes/assumptions/2.md): the ALU's `result` under the operation NONE (J only), which R87
leaves unspecified. Nothing constrains it. -/
opaque Config.aluNoneResult : Byte → Byte → Byte

/-- FREE VALUE (notes/assumptions/2.md): the ALU's `zero` under NONE (R87). -/
opaque Config.aluNoneZero : Byte → Byte → Bool

/-- FREE VALUE (notes/assumptions/2.md): the ALU's `carry_out` under NONE (R87). -/
opaque Config.aluNoneCarry : Byte → Byte → Bool

end Sys2Proof
end

