-- ==== Sys2Proof/WellFormed.lean ====
section
/-! DEFINITION. What a well-formed OPCODE_MAP and a well-formed instruction are (30_encoding.md R56, R58, R60). -/

namespace Sys2Proof

/-- The number a map assigns to a mnemonic. -/
def OpcodeMap.number (m : OpcodeMap) : Mnemonic → BitVec 4
  | .add => m.add
  | .addi => m.addi
  | .or => m.or
  | .sub => m.sub
  | .beq => m.beq
  | .lw => m.lw
  | .sw => m.sw
  | .j => m.j

/-- The eight numbers a map assigns, in the control table's row order. -/
def OpcodeMap.numbers (m : OpcodeMap) : List (BitVec 4) :=
  [m.add, m.addi, m.or, m.sub, m.beq, m.lw, m.sw, m.j]

/-- R56: OPCODE_MAP is injective and does not use 0x8. -/
def OpcodeMap.valid (m : OpcodeMap) : Bool :=
  decide m.numbers.Nodup && !m.numbers.contains 0x8#4

/-- The operand bits of the instruction (bits 11 to 0 of its word) are all ones. -/
def Instr.operandsAllOnes : Instr → Bool
  | .add rs rt rd g => rs == .r3 && rt == .r3 && rd == .r3 && g == 0x3F#6
  | .addi rs rt imm => rs == .r3 && rt == .r3 && imm == 0xFF#8
  | .or rs rt rd g => rs == .r3 && rt == .r3 && rd == .r3 && g == 0x3F#6
  | .sub rs rt rd g => rs == .r3 && rt == .r3 && rd == .r3 && g == 0x3F#6
  | .beq rs rt g => rs == .r3 && rt == .r3 && g == 0xFF#8
  | .lw rs rt imm => rs == .r3 && rt == .r3 && imm == 0xFF#8
  | .sw rs rt imm => rs == .r3 && rt == .r3 && imm == 0xFF#8
  | .j g => g == 0xFFF#12
  | .sentinel => false

/-- An instruction is well formed under a map unless its word would be the sentinel `0xFFFF`: "If a non-default
OPCODE_MAP assigned 0xF to an instruction, the word 0xFFFF would still be the sentinel and never that
instruction" (30_encoding.md R60). Every register field has 2 bits, so an operand is never out of range (R10). -/
def Instr.wellFormed (m : OpcodeMap) (i : Instr) : Bool :=
  match i.mnemonic? with
  | none => true
  | some k => !(m.number k == 0xF#4 && i.operandsAllOnes)

end Sys2Proof
end

