-- ==== Sys2Proof/Decode.lean ====
section
/-! DEFINITION. The instruction decoder (total on every 16-bit word, rejecting an undefined opcode by name) and,
after it, the encoder (30_encoding.md R50 to R66; 40_alu_control_decoder.md R70, R71). The word is the unit:
an instruction word is never split into bytes and has no byte order (20_memory.md R31). -/

namespace Sys2Proof

/-- The default OPCODE_MAP: the control table's row order counted from 0 (30_encoding.md R56,
92_eei_decisions.md D1; notes/assumptions/1.md). -/
def defaultOpcodeMap : OpcodeMap where
  add := 0x0#4
  addi := 0x1#4
  or := 0x2#4
  sub := 0x3#4
  beq := 0x4#4
  lw := 0x5#4
  sw := 0x6#4
  j := 0x7#4

/-- SENTINEL, the end-of-program word (R5, R164). -/
def sentinelWord : Word := 0xFFFF#16

/-- The register a 2-bit field names (R55). -/
def Reg.ofBits (b : BitVec 2) : Reg :=
  match b.toNat with
  | 0 => .r0
  | 1 => .r1
  | 2 => .r2
  | _ => .r3

/-- The 2-bit field that names a register. -/
def Reg.toBits : Reg → BitVec 2
  | .r0 => 0#2
  | .r1 => 1#2
  | .r2 => 2#2
  | .r3 => 3#2

/-- The five outputs of the decoder block (40_alu_control_decoder.md R70, R72). -/
structure Fields where
  opcode : BitVec 4
  rs : Reg
  rt : Reg
  rd : Reg
  imm : Byte
deriving DecidableEq, Repr

/-- R51, R70: all five fields are extracted from every word, from fixed bit positions. -/
def fields (w : Word) : Fields where
  opcode := w.extractLsb' 12 4
  rs := Reg.ofBits (w.extractLsb' 10 2)
  rt := Reg.ofBits (w.extractLsb' 8 2)
  rd := Reg.ofBits (w.extractLsb' 6 2)
  imm := w.extractLsb' 0 8

/-- The mnemonic an opcode number stands for, if the map assigns it to one (R56, R59). -/
def OpcodeMap.lookup (m : OpcodeMap) (opcode : BitVec 4) : Option Mnemonic :=
  if opcode = m.add then some .add
  else if opcode = m.addi then some .addi
  else if opcode = m.or then some .or
  else if opcode = m.sub then some .sub
  else if opcode = m.beq then some .beq
  else if opcode = m.lw then some .lw
  else if opcode = m.sw then some .sw
  else if opcode = m.j then some .j
  else none

/-- Why a word is no instruction: its opcode is outside the control table (R59). -/
inductive DecodeError where
  | undefinedOpcode (opcode : BitVec 4)
deriving DecidableEq, Repr

/-- The instruction of a mnemonic with the operand fields of a word (R53, R71). -/
def instrOfFields (k : Mnemonic) (w : Word) : Instr :=
  let f := fields w
  match k with
  | .add => .add f.rs f.rt f.rd (w.extractLsb' 0 6)
  | .addi => .addi f.rs f.rt f.imm
  | .or => .or f.rs f.rt f.rd (w.extractLsb' 0 6)
  | .sub => .sub f.rs f.rt f.rd (w.extractLsb' 0 6)
  | .beq => .beq f.rs f.rt f.imm
  | .lw => .lw f.rs f.rt f.imm
  | .sw => .sw f.rs f.rt f.imm
  | .j => .j (w.extractLsb' 0 12)

/-- R58, under a given map: the sentinel first, by the whole word; then the opcode's row; else undefined. -/
def decodeWith (m : OpcodeMap) (w : Word) : Except DecodeError Instr :=
  if w = sentinelWord then .ok .sentinel
  else
    match m.lookup (fields w).opcode with
    | some k => .ok (instrOfFields k w)
    | none => .error (.undefinedOpcode (fields w).opcode)

/-- The machine's decoder: R58 under the default OPCODE_MAP. -/
def decode (w : Word) : Except DecodeError Instr := decodeWith defaultOpcodeMap w

/-- R51, R66: a word from its opcode, its two register fields and its low byte. -/
def packWord (opcode : BitVec 4) (rs rt : Reg) (low : BitVec 8) : Word :=
  opcode ++ rs.toBits ++ rt.toBits ++ low

/-- R66 under a given map; the ignored bits are written as the instruction carries them (R64 writes them 0). -/
def encodeWith (m : OpcodeMap) : Instr → Word
  | .add rs rt rd g => packWord m.add rs rt (rd.toBits ++ g)
  | .addi rs rt imm => packWord m.addi rs rt imm
  | .or rs rt rd g => packWord m.or rs rt (rd.toBits ++ g)
  | .sub rs rt rd g => packWord m.sub rs rt (rd.toBits ++ g)
  | .beq rs rt g => packWord m.beq rs rt g
  | .lw rs rt imm => packWord m.lw rs rt imm
  | .sw rs rt imm => packWord m.sw rs rt imm
  | .j g => m.j ++ g
  | .sentinel => sentinelWord

/-- The machine's encoder: R66 under the default OPCODE_MAP. -/
def encode (i : Instr) : Word := encodeWith defaultOpcodeMap i

/-- The 16-bit word whose low `nbits` bits are those of `w` and whose other bits are 0. -/
def tableWord (nbits w : Nat) : Word := BitVec.ofNat 16 (w % 2 ^ nbits)

/-- The instruction the decoder reads from a table word: one 16-bit word, bit 0 the least significant
(every row of the table has 16 bits; R50, R63). Bits above `nbits` are 0; `none` where the decoder refuses the word
and for a width no instruction has. -/
def decodeTableWord (nbits w : Nat) : Option Instr :=
  if nbits ≤ 16 then
    match decode (tableWord nbits w) with
    | .ok i => some i
    | .error _ => none
  else none

end Sys2Proof
end

