-- ==== Sys2Proof/Machine/Params.lean ====
section
/-! DEFINITION. The implementation parameters (00_scope.md R5). The four that R5 leaves OPEN are the fields of `Params`, an
argument of the machine; `defaultParams` holds the spec's defaults for them (92_eei_decisions.md D1, D5, D6, D7;
notes/assumptions/1.md, 3.md to 5.md). The two that R5 marks as decisions, PC_START and ON_UNDEFINED_OPCODE, are constants
(D2, D3; notes/assumptions/6.md and 7.md). -/

namespace Sys2Proof.Machine

/-- The register file: four unsigned 8-bit registers (10_state.md R10). No register is hardwired (R11). -/
structure RegFile where
  r0 : Byte
  r1 : Byte
  r2 : Byte
  r3 : Byte
deriving DecidableEq, Repr

/-- The parameters the spec leaves OPEN (R5): configuration fields, fixed for one machine, that no step, host call or reset
changes. They are no architectural state (R9; 10_state.md R27). -/
structure Params where
  /-- OPCODE_MAP (30_encoding.md R56). -/
  opcodeMap : OpcodeMap
  /-- REG_INIT: the four register values after reset (10_state.md R14). -/
  regInit : RegFile
  /-- DMEM_FILL: what a data cell nothing wrote reads as (10_state.md R25). -/
  dmemFill : Byte
  /-- IMEM_FILL: what an instruction word nothing loaded reads as (10_state.md R25). -/
  imemFill : Word
deriving DecidableEq, Repr

/-- The spec's defaults (R5): OPCODE_MAP in the control table's row order, REG_INIT all 0, DMEM_FILL 0x00, IMEM_FILL 0xFFFF. -/
def defaultParams : Params where
  opcodeMap := defaultOpcodeMap
  regInit := ⟨0x00#8, 0x00#8, 0x00#8, 0x00#8⟩
  dmemFill := 0x00#8
  imemFill := 0xFFFF#16

/-- PC_START: the index of the first instruction fetched (10_state.md R17; notes/assumptions/6.md). -/
def pcStart : Fin 257 := 0

/-- ON_UNDEFINED_OPCODE: halt (60_exceptions.md R172; notes/assumptions/7.md). -/
def onUndefinedOpcode : OnUndefinedOpcode := .halt

end Sys2Proof.Machine
end

