-- ==== Sys2Proof/Machine/State.lean ====
section
/-! DEFINITION. The machine's state as plain data, its reset value, and the reasons a step can stop
(10_state.md R10 to R27; 70_reset_and_hazards.md R190 to R194). -/

namespace Sys2Proof.Machine

/-- The fetch index: 0 to 255 name an instruction word, 256 is one past the last; 257 to 511 are made
unrepresentable (R15; 93_implementation_defined.md U13). -/
abbrev Pc := Fin 257

/-- The run status (R18); codes 5 to 7 are made unrepresentable (93_implementation_defined.md U13). -/
inductive Status where
  /-- 0 LOAD: before `run()`. -/
  | load
  /-- 1 RUNNING: `run()` is in progress. -/
  | running
  /-- 2 DONE: the sentinel was fetched. -/
  | done
  /-- 3 ERR_UNDEFINED_OPCODE. -/
  | errUndefinedOpcode
  /-- 4 ERR_PROGRAM_OVERRUN. -/
  | errProgramOverrun
deriving DecidableEq, Repr

/-- Data memory: 256 cells of 8 bits, the cells that differ from DMEM_FILL listed by rising address (R22). -/
abbrev DMem := List Host.Cell

/-- Instruction memory: 256 words of 16 bits, the words that differ from IMEM_FILL listed by rising index (R23). -/
abbrev IMem := List (Nat × Word)

/-- The architectural state: R27's tuple `(x[0..3], pc, status, DMem[0..255])`, which is all that a step changes (00_scope.md R9).
The ALU's flags and the control bundle are no state (R20, R26). -/
structure RunState where
  regs : RegFile
  pc : Pc
  status : Status
  dmem : DMem
deriving DecidableEq, Repr

/-- What is fixed for a whole run and so "a parameter of the step" and no state (00_scope.md R9; R23, R27): the open parameters of the
machine and the image of instruction memory that the host loaded. -/
structure Setup where
  params : Params
  imem : IMem
deriving DecidableEq, Repr

/-- A machine at a moment of its session: the architectural state, and beside it the parameters and the program, which the host's calls
need at hand and no step changes (70_reset_and_hazards.md R198; notes/assumptions/8.md). -/
structure State extends RunState, Setup
deriving DecidableEq, Repr

/-- A machine with the given parameters right after reset (70_reset_and_hazards.md R190): LOAD, index 0, REG_INIT, both memories at
their fill values. -/
def State.resetWith (p : Params) : State where
  regs := p.regInit
  pc := pcStart
  status := .load
  dmem := []
  params := p
  imem := []

/-- The machine with the spec's default parameters right after reset (R27, R190). -/
def State.reset : State := State.resetWith defaultParams

/-- Why a step stops with no next state. The spec's two error kinds are NOT here: they are taken, as next
states whose status says so (60_exceptions.md R179). -/
inductive Fault where
  /-- Raised by `step` alone, when the run is over (status DONE or an error): "the engine takes no further step"
  (41_execution_engine.md R118). Safe: the model stops where the machine has stopped. -/
  | runOver (status : Status)
deriving DecidableEq, Repr

/-- Why an instruction or a host call is given no meaning. -/
inductive Refusal where
  /-- Raised only by an arm of `exec` whose instruction has no meaning yet; no arm does. Safe. -/
  | notModelled (mnemonic : String)
  /-- Raised by `hostCall`: an index or address above 255, a word above 0xFFFF, a value above 255
  (41_execution_engine.md R123). Safe: the spec refuses it too. -/
  | hostArgumentOutOfRange
  /-- Raised by `hostCall`: a load call outside the load phase, a second `run()`, or any call during a run
  (41_execution_engine.md R123, R126). Safe: the spec refuses it too. -/
  | hostCallOutOfPhase
deriving DecidableEq, Repr

end Sys2Proof.Machine
end

