-- ==== Sys2Proof/Machine/Ops.lean ====
section
/-! DEFINITION. The named operations over the state: registers, the two memories, the program counter, taking an
error and ending a run, launching a run. -/

namespace Sys2Proof.Machine

/-! ### Registers (10_state.md R10 to R13) -/

/-- The register of an index. -/
def RegFile.get (f : RegFile) : Reg → Byte
  | .r0 => f.r0
  | .r1 => f.r1
  | .r2 => f.r2
  | .r3 => f.r3

/-- The register file with one register replaced. -/
def RegFile.set (f : RegFile) (r : Reg) (v : Byte) : RegFile :=
  match r with
  | .r0 => { f with r0 := v }
  | .r1 => { f with r1 := v }
  | .r2 => { f with r2 := v }
  | .r3 => { f with r3 := v }

/-- `x[i]` (00_scope.md R7). A read has no side effect and cannot fail (R10, R12). -/
def State.readReg (s : State) (r : Reg) : Byte := s.regs.get r

/-- `x[i] <- v` (00_scope.md R7). -/
def State.writeReg (s : State) (r : Reg) (v : Byte) : State := { s with regs := s.regs.set r v }

/-! ### Memories as canonical lists (20_memory.md R34) -/

/-- What a list of cells holds at an address: the fill value where nothing is listed. -/
def Memory.read {w : Nat} (fill : BitVec w) : List (Nat × BitVec w) → Nat → BitVec w
  | [], _ => fill
  | (k, v) :: rest, a => if k = a then v else Memory.read fill rest a

/-- The list without the cell of an address. -/
def Memory.erase {w : Nat} (m : List (Nat × BitVec w)) (a : Nat) : List (Nat × BitVec w) :=
  m.filter fun c => c.1 ≠ a

/-- The list with a cell put in at its place in the rising order. -/
def Memory.insert {w : Nat} : List (Nat × BitVec w) → Nat → BitVec w → List (Nat × BitVec w)
  | [], a, v => [(a, v)]
  | (k, u) :: rest, a, v =>
    if a < k then (a, v) :: (k, u) :: rest else (k, u) :: Memory.insert rest a v

/-- One cell written; writing the fill value removes the cell from the list. -/
def Memory.write {w : Nat} (fill : BitVec w) (m : List (Nat × BitVec w)) (a : Nat) (v : BitVec w) :
    List (Nat × BitVec w) :=
  if v = fill then Memory.erase m a else Memory.insert (Memory.erase m a) a v

/-- The canonical form: addresses strictly rising, each inside the memory, no cell listed at the fill value. -/
abbrev Memory.wf {w : Nat} (fill : BitVec w) (size : Nat) (m : List (Nat × BitVec w)) : Prop :=
  m.Pairwise (fun c d => c.1 < d.1) ∧ ∀ c ∈ m, c.1 < size ∧ c.2 ≠ fill

/-- `DMem[addr]` of a data memory whose DMEM_FILL is `fill` (20_memory.md R34; 10_state.md R25). -/
def DMem.read (fill : Byte) (m : DMem) (addr : Byte) : Byte := Memory.read fill m addr.toNat

/-- `DMem[addr] <- v` of a data memory whose DMEM_FILL is `fill` (20_memory.md R34). -/
def DMem.write (fill : Byte) (m : DMem) (addr : Byte) (v : Byte) : DMem := Memory.write fill m addr.toNat v

/-- `MemRead(addr, 1)` (20_memory.md R34): every 8-bit address is valid (R38) and a read has no side effect (R36). -/
def State.memRead (s : State) (addr : Byte) : Byte := DMem.read s.params.dmemFill s.dmem addr

/-- `MemWrite(addr, 1, v)` (20_memory.md R34). -/
def State.memWrite (s : State) (addr : Byte) (v : Byte) : State :=
  { s with dmem := DMem.write s.params.dmemFill s.dmem addr v }

/-- `IMem[i]` (10_state.md R23; 41_execution_engine.md R115). -/
def State.instrAt (s : State) (i : Nat) : Word := Memory.read s.params.imemFill s.imem i

/-- `IMem[i] <- w`: only the host's `load_instruction` does this (41_execution_engine.md R121). -/
def State.setInstr (s : State) (i : Nat) (w : Word) : State :=
  { s with imem := Memory.write s.params.imemFill s.imem i w }

/-! ### The program counter (10_state.md R15 to R17) -/

/-- `pc + 1`. It never wraps; at 256, where no instruction executes (R16, R117), it stays
(notes/assumptions/9.md). -/
def Pc.next (p : Pc) : Pc := if h : p.val < 256 then ⟨p.val + 1, by omega⟩ else p

/-- `pc <- pc + 1` (41_execution_engine.md R117). -/
def State.advance (s : State) : State := { s with pc := Pc.next s.pc }

/-! ### The end of a run and the two errors (60_exceptions.md R170 to R183) -/

/-- The numeric code of a status, 3 bits (10_state.md R18, 92_eei_decisions.md D4). -/
def Status.code : Status → BitVec 3
  | .load => 0#3
  | .running => 1#3
  | .done => 2#3
  | .errUndefinedOpcode => 3#3
  | .errProgramOverrun => 4#3

/-- The two error kinds (R170). -/
inductive ErrorKind where
  | undefinedOpcode
  | programOverrun
deriving DecidableEq, Repr

/-- The status an error kind leaves (R175). -/
def ErrorKind.status : ErrorKind → Status
  | .undefinedOpcode => .errUndefinedOpcode
  | .programOverrun => .errProgramOverrun

/-- TAKING AN ERROR, the one shared operation: "set `status` to the error code and stop stepping. Nothing else
happens" (R179). No state is saved, no mode changes, control goes nowhere, and `pc` stays where it is
(R171, R173). There is no return from an error (R182): reset is the only way out. -/
def State.takeError (s : State) (e : ErrorKind) : State := { s with status := e.status }

/-- What an undefined opcode does under a given ON_UNDEFINED_OPCODE: halt takes the error (R171, R172); skip
would do `pc <- pc + 1` and go on (R172). -/
def State.undefinedOpcodeWith (policy : OnUndefinedOpcode) (s : State) : State :=
  match policy with
  | .halt => s.takeError .undefinedOpcode
  | .skip => s.advance

/-- What an undefined opcode does on this machine (R172). -/
def State.undefinedOpcode (s : State) : State := s.undefinedOpcodeWith onUndefinedOpcode

/-- Running off the end of instruction memory (R173). -/
def State.programOverrun (s : State) : State := s.takeError .programOverrun

/-- The normal end of a run: `status <- DONE`, nothing else (45_branch_jump_end.md R164). -/
def State.finish (s : State) : State := { s with status := .done }

/-- The `run()` request: `pc <- 0`, `status <- RUNNING` (41_execution_engine.md R124). -/
def State.launch (s : State) : State := { s with pc := pcStart, status := .running }

end Sys2Proof.Machine
end

