-- ==== Sys2Proof/Machine/Control.lean ====
section
/-! DEFINITION. The Control Unit: a pure function from a 4-bit opcode to a complete bundle of nine control
signals, or `none` (40_alu_control_decoder.md R73 to R79). -/

namespace Sys2Proof.Machine

/-- The ALU operation of a bundle: the source's three, and NONE for J (R74; 90_conflicts.md C4). -/
inductive AluOp where
  | add | sub | or | none
deriving DecidableEq, Repr

/-- The bundle of nine control signals (R74), in the order of R76's table. -/
structure ControlBundle where
  aluOp : AluOp
  regDst : Bool
  aluSrc : Bool
  memToReg : Bool
  regWrite : Bool
  memRead : Bool
  memWrite : Bool
  branch : Bool
  jump : Bool
deriving DecidableEq, Repr

/-- The control table, cell for cell (R76). -/
def controlRow : Mnemonic → ControlBundle
  | .add  => ⟨.add,  true,  false, false, true,  false, false, false, false⟩
  | .addi => ⟨.add,  false, true,  false, true,  false, false, false, false⟩
  | .or   => ⟨.or,   true,  false, false, true,  false, false, false, false⟩
  | .sub  => ⟨.sub,  true,  false, false, true,  false, false, false, false⟩
  | .beq  => ⟨.sub,  false, false, false, false, false, false, true,  false⟩
  | .lw   => ⟨.add,  false, true,  true,  true,  true,  false, false, false⟩
  | .sw   => ⟨.add,  false, true,  false, false, false, true,  false, false⟩
  | .j    => ⟨.none, false, false, false, false, false, false, false, true⟩

/-- `control(opcode)` (R75): the bundle of an assigned opcode, `none` for every other value; a function of the
opcode alone, so no signal of an earlier instruction can be reused. `none` is the port `valid` at 0 (R78). -/
def controlUnit (m : OpcodeMap) (opcode : BitVec 4) : Option ControlBundle :=
  (m.lookup opcode).map controlRow

/-- The optional 2-bit code of `alu_op` for a bit-level port (92_eei_decisions.md D13). -/
def AluOp.code : AluOp → BitVec 2
  | .add => 0#2
  | .sub => 1#2
  | .or => 2#2
  | .none => 3#2

end Sys2Proof.Machine
end

