-- ==== Sys2Proof/Machine/Flags.lean ====
section
/-! DEFINITION. The Arithmetic-Logic Unit with its two flags (40_alu_control_decoder.md R80 to R89). The flags are
outputs of the block and are never stored (10_state.md R20). -/

namespace Sys2Proof.Machine

/-- What the ALU gives (R80). -/
structure AluOut where
  result : Byte
  zero : Bool
  carryOut : Bool
deriving DecidableEq, Repr

/-- R84: `zero` is taken from the 8-bit result, the same way for every operation. -/
def zeroFlag (result : Byte) : Bool := decide (result = 0#8)

/-- R81: the sum, wrapped to 8 bits. -/
def addResult (a b : Byte) : Byte := a + b

/-- R81: 1 when the wrapped result is less than `a`, unsigned. -/
def addCarry (a b : Byte) : Bool := decide ((addResult a b).toNat < a.toNat)

/-- R82: the difference, wrapped to 8 bits. -/
def subResult (a b : Byte) : Byte := a - b

/-- R82: the borrow, 1 when `a < b` unsigned. -/
def subCarry (a b : Byte) : Bool := decide (a.toNat < b.toNat)

/-- R83: bitwise OR. -/
def orResult (a b : Byte) : Byte := a ||| b

/-- R83: `carry_out` of OR is 0 (90_conflicts.md C2; notes/assumptions/10.md). -/
def orCarry : Bool := false

/-- `alu(a, b, op)` (R80 to R85); the outputs under NONE are free values (R87; notes/assumptions/2.md). -/
def alu (op : AluOp) (a b : Byte) : AluOut :=
  match op with
  | .add => ⟨addResult a b, zeroFlag (addResult a b), addCarry a b⟩
  | .sub => ⟨subResult a b, zeroFlag (subResult a b), subCarry a b⟩
  | .or => ⟨orResult a b, zeroFlag (orResult a b), orCarry⟩
  | .none => ⟨Config.aluNoneResult a b, Config.aluNoneZero a b, Config.aluNoneCarry a b⟩

end Sys2Proof.Machine
end

