-- ==== Sys2Proof/Machine/Operands.lean ====
section
/-! DEFINITION. Operand forms: register direct, immediate, base plus immediate (30_encoding.md R54, R55), and the
engine's muxes over them (41_execution_engine.md R104, R107, R108, R110, R112), stated for any bundle. -/

namespace Sys2Proof.Machine

/-- The effective address of LW and SW: `(x[rs] + imm) mod 256`, the ALU's sum of the base register and the
unsigned immediate (44_load_store.md R150, R152; 20_memory.md R38). -/
def effectiveAddress (s : State) (rs : Reg) (imm : Byte) : Byte :=
  (alu .add (s.readReg rs) imm).result

/-- R104, the operand mux: the ALU's second input is the immediate if `alu_src`, else `x[rt]`. -/
def operandB (c : ControlBundle) (imm operand2 : Byte) : Byte :=
  if c.aluSrc then imm else operand2

/-- R108, the destination index: `rt` if `mem_to_reg`, else `rd` or `rt` by `reg_dst`. -/
def destination (c : ControlBundle) (rt rd : Reg) : Reg :=
  if c.memToReg then rt else if c.regDst then rd else rt

/-- R110 `we`: data memory takes `wdata` when the word is valid, nothing is read and `mem_write` is set. -/
def memWriteEnable (valid : Bool) (c : ControlBundle) : Bool := valid && !c.memRead && c.memWrite

/-- R110 `wb_inhibit`: the store path suppresses register write-back. -/
def writeBackInhibit (c : ControlBundle) : Bool := !c.memRead && c.memWrite

/-- R110 `wb_sel_mem`: the write-back data is the cell read. -/
def writeBackFromMem (c : ControlBundle) : Bool := c.memRead

/-- R112 `we`: one register is written when the word is valid, `reg_write` is set and no store inhibits it. -/
def regWriteEnable (valid : Bool) (c : ControlBundle) : Bool :=
  valid && c.regWrite && !writeBackInhibit c

end Sys2Proof.Machine
end

