-- ==== Sys2Proof/Machine/ControlFlow.lean ====
section
/-! DEFINITION. The control family and the sentinel: BEQ and J are inert, the sentinel ends the run
(45_branch_jump_end.md R160 to R165). -/

namespace Sys2Proof.Machine

/-- BEQ: `pc <- pc + 1`, always, equal or not; the ALU's difference and `zero` are discarded (R160, R161).
The operands are named because the hardware reads them (10_state.md R12); they reach nothing. -/
def execBeq (_rs _rt : Reg) (s : State) : Host.Outcome State Fault Refusal :=
  .next s.advance

/-- J: `pc <- pc + 1` (R162). -/
def execJ (s : State) : Host.Outcome State Fault Refusal :=
  .next s.advance

/-- The sentinel: `status <- DONE`; `pc`, registers and data memory unchanged (R164; 41_execution_engine.md R116). -/
def execSentinel (s : State) : Host.Outcome State Fault Refusal :=
  .next s.finish

end Sys2Proof.Machine
end

