-- ==== Sys2Proof/Machine/LoadStore.lean ====
section
/-! DEFINITION. The memory family: LW, SW (44_load_store.md R150 to R153). -/

namespace Sys2Proof.Machine

/-- LW: `x[rt] <- DMem[(x[rs] + imm) mod 256]`, all 8 bits; the base is not modified unless it is `rt` (R150). -/
def execLw (rs rt : Reg) (imm : Byte) (s : State) : Host.Outcome State Fault Refusal :=
  .next (s.writeReg rt (s.memRead (effectiveAddress s rs imm))).advance

/-- SW: `DMem[(x[rs] + imm) mod 256] <- x[rt]`; the register's value, not the immediate (R152; 90_conflicts.md C5). -/
def execSw (rs rt : Reg) (imm : Byte) (s : State) : Host.Outcome State Fault Refusal :=
  .next (s.memWrite (effectiveAddress s rs imm) (s.readReg rt)).advance

end Sys2Proof.Machine
end

