-- ==== Sys2Proof/Machine/RegImm.lean ====
section
/-! DEFINITION. The register-immediate family: ADDI (43_reg_imm.md R140). -/

namespace Sys2Proof.Machine

/-- ADDI: `x[rt] <- (x[rs] + imm) mod 256`, `imm` unsigned (R140; 30_encoding.md R54). -/
def execAddi (rs rt : Reg) (imm : Byte) (s : State) : Host.Outcome State Fault Refusal :=
  .next (s.writeReg rt (alu .add (s.readReg rs) imm).result).advance

end Sys2Proof.Machine
end

