-- ==== Sys2Proof/Machine/RegReg.lean ====
section
/-! DEFINITION. The register-register family: ADD, OR, SUB (42_reg_reg.md R130 to R133). -/

namespace Sys2Proof.Machine

/-- What the family shares (R133): both sources are read, then `x[rd]` takes the ALU's result and `pc` advances. -/
def regRegOp (op : AluOp) (rs rt rd : Reg) (s : State) : State :=
  (s.writeReg rd (alu op (s.readReg rs) (s.readReg rt)).result).advance

/-- ADD: `x[rd] <- (x[rs] + x[rt]) mod 256` (R130). -/
def execAdd (rs rt rd : Reg) (s : State) : Host.Outcome State Fault Refusal :=
  .next (regRegOp .add rs rt rd s)

/-- OR: `x[rd] <- x[rs] | x[rt]` (R131). -/
def execOr (rs rt rd : Reg) (s : State) : Host.Outcome State Fault Refusal :=
  .next (regRegOp .or rs rt rd s)

/-- SUB: `x[rd] <- (x[rs] - x[rt]) mod 256` (R132). -/
def execSub (rs rt rd : Reg) (s : State) : Host.Outcome State Fault Refusal :=
  .next (regRegOp .sub rs rt rd s)

end Sys2Proof.Machine
end

