-- ==== Sys2Proof/Machine/Dispatch.lean ====
section
/-! DEFINITION. One arm per constructor of `Instr`, each one direct call of that instruction's meaning. -/

namespace Sys2Proof.Machine

def exec (i : Instr) (s : State) : Host.Outcome State Fault Refusal :=
  match i with
  | .add rs rt rd _ => Sys2Proof.Machine.execAdd rs rt rd s
  | .addi rs rt imm => Sys2Proof.Machine.execAddi rs rt imm s
  | .or rs rt rd _ => Sys2Proof.Machine.execOr rs rt rd s
  | .sub rs rt rd _ => Sys2Proof.Machine.execSub rs rt rd s
  | .beq rs rt _ => Sys2Proof.Machine.execBeq rs rt s
  | .lw rs rt imm => Sys2Proof.Machine.execLw rs rt imm s
  | .sw rs rt imm => Sys2Proof.Machine.execSw rs rt imm s
  | .j _ => Sys2Proof.Machine.execJ s
  | .sentinel => Sys2Proof.Machine.execSentinel s

end Sys2Proof.Machine
end

