-- ==== Sys2Proof/Machine/Fetch.lean ====
section
/-! DEFINITION. What the engine does next, and the placing of one word where it fetches (41_execution_engine.md
R114 to R118; 60_exceptions.md R177). Step.lean only calls these. -/

namespace Sys2Proof.Machine

/-- The event of one step. -/
inductive Event where
  /-- In LOAD: the host's `run()` call (R124; notes/assumptions/15.md). -/
  | launch
  /-- `pc` is 256: ProgramOverrun, nothing fetched (R117). -/
  | overrun
  /-- The word at `pc` is an instruction or the sentinel. -/
  | instr (i : Instr)
  /-- The word at `pc` has an undefined opcode (R171). -/
  | undefined
  /-- The run is over (R118). -/
  | over
deriving DecidableEq, Repr

/-- The one event of a step, in the fixed order of R177: the overrun test, then the fetch, then the sentinel and the
opcode lookup (both in `decodeWith`, R58), under the machine's OPCODE_MAP. -/
def State.event (s : State) : Event :=
  match s.status with
  | .load => .launch
  | .running =>
    if s.pc.val = 256 then .overrun
    else
      match decodeWith s.params.opcodeMap (s.instrAt s.pc.val) with
      | .ok i => .instr i
      | .error _ => .undefined
  | .done => .over
  | .errUndefinedOpcode => .over
  | .errProgramOverrun => .over

/-- The state with a word placed at the index fetched next, and the run going on: what the host's
`load_instruction` and `run()` bring about (R121, R124; notes/assumptions/16.md). At `pc` = 256 nothing would be fetched,
so the index is then 0. -/
def State.placeWord (s : State) (w : Word) : State :=
  let p : Pc := if s.pc.val = 256 then 0 else s.pc
  { s.setInstr p.val w with pc := p, status := .running }

end Sys2Proof.Machine
end

