-- ==== Sys2Proof/Machine/RunStep.lean ====
section
/-! DEFINITION. One step as the spec's step relation: on the architectural state alone, with the parameters and the instruction memory
as arguments (00_scope.md R5, R9; 10_state.md R23, R27; 41_execution_engine.md R114). Step.lean only calls it. -/

namespace Sys2Proof.Machine

/-- The architectural part of what an instruction answers. -/
def keepRunState (o : Host.Outcome State Fault Refusal) : Host.Outcome RunState Fault Refusal :=
  match o with
  | .next t => .next t.toRunState
  | .fault r => .fault r
  | .refused r => .refused r

/-- An answer on the architectural state, beside the setup it was given under. -/
def underSetup (u : Setup) (o : Host.Outcome RunState Fault Refusal) : Host.Outcome State Fault Refusal :=
  match o with
  | .next t => .next ⟨t, u⟩
  | .fault r => .fault r
  | .refused r => .refused r

/-- What a machine does at an event. -/
def respond (s : State) (e : Event) : Host.Outcome State Fault Refusal :=
  match e with
  | .launch => .next s.launch
  | .overrun => .next s.programOverrun
  | .instr i => exec i s
  | .undefined => .next s.undefinedOpcode
  | .over => .fault (.runOver s.status)

/-- `step()` of R114 while RUNNING; in LOAD the `run()` request (R124); no step once the run is over (R118). It takes the parameters and the
program as an argument and answers a `RunState`, so it cannot change them. -/
def runStep (u : Setup) (r : RunState) : Host.Outcome RunState Fault Refusal :=
  keepRunState (respond ⟨r, u⟩ (State.event ⟨r, u⟩))

end Sys2Proof.Machine
end

