-- ==== Sys2Proof/Machine/Step.lean ====
section
/-! DEFINITION. One step of the machine (41_execution_engine.md R114), with three outcomes. -/

namespace Sys2Proof.Machine

/-- One step: `runStep` on the architectural state, under the machine's parameters and program, which stay as they are. -/
def step (s : State) : Host.Outcome State Fault Refusal :=
  underSetup s.toSetup (runStep s.toSetup s.toRunState)

/-- `s` with the table word `w` stored where `step` fetches its next instruction. -/
def State.withFetchWord (s : State) (nbits w : Nat) : State := s.placeWord (tableWord nbits w)

end Sys2Proof.Machine
end

