-- ==== Sys2Proof/Machine/Engine.lean ====
section
/-! DEFINITION. The Execution Engine's datapath for ANY control bundle, and `execute`, the function of exactly three
inputs (41_execution_engine.md R100 to R112); the machine's parameters OPCODE_MAP and DMEM_FILL come with it. The instructions' own meanings are in the family files; that this engine,
driven by the Control Unit, does the same is a statement of the package. -/

namespace Sys2Proof.Machine

/-- What `execute` reads and writes besides the word: "the four register values, and the 256 data cells" (R100). -/
structure Data where
  regs : RegFile
  dmem : DMem
deriving DecidableEq, Repr

/-- The part of a state that `execute` sees (R100). -/
def State.data (s : State) : Data := ⟨s.regs, s.dmem⟩

/-- The ALU's outputs for a bundle and fields (R103 to R105): operand 1 is `x[rs]`, operand 2 `x[rt]`. -/
def aluStage (c : ControlBundle) (f : Fields) (d : Data) : AluOut :=
  alu c.aluOp (d.regs.get f.rs) (operandB c f.imm (d.regs.get f.rt))

/-- Step 6, the read/write arbiter of R107, in priority order: the write-data for the write-back stage, or `none` when
the store path ended the instruction, and the data memory after it. `fill` is DMEM_FILL. -/
def memoryStage (fill : Byte) (c : ControlBundle) (aluResult operand2 : Byte) (m : DMem) : Option Byte × DMem :=
  if c.memRead then (some (DMem.read fill m aluResult), m)
  else if c.memWrite then (none, DMem.write fill m aluResult operand2)
  else (some aluResult, m)

/-- Step 7, register write-back (R108), reached only when step 6 did not take the store path. -/
def writeBackStage (c : ControlBundle) (f : Fields) (writeData : Option Byte) (g : RegFile) : RegFile :=
  match writeData with
  | none => g
  | some v => if c.regWrite then g.set (destination c f.rt f.rd) v else g

/-- Steps 3 to 8 of R106 for any bundle. `c.branch`, `c.jump`, `zero` and `carry_out` are used by nothing (R109). -/
def datapath (fill : Byte) (c : ControlBundle) (f : Fields) (d : Data) : Data :=
  let stage := memoryStage fill c (aluStage c f d).result (d.regs.get f.rt) d.dmem
  { regs := writeBackStage c f stage.1 d.regs, dmem := stage.2 }

/-- The same datapath by its port equations (R110, R112): the write enables gated by `valid`, the write-back data mux. -/
def datapathPorts (fill : Byte) (valid : Bool) (c : ControlBundle) (f : Fields) (d : Data) : Data :=
  let addr := (aluStage c f d).result
  let rdata := DMem.read fill d.dmem addr
  let wdata := if writeBackFromMem c then rdata else addr
  { regs := if regWriteEnable valid c then d.regs.set (destination c f.rt f.rd) wdata else d.regs
    dmem := if memWriteEnable valid c then DMem.write fill d.dmem addr (d.regs.get f.rt) else d.dmem }

/-- `execute(instruction, registers, data_memory)` (R100, R106) of a machine with parameters `p`: its only failure is
UndefinedOpcode (R102). -/
def execute (p : Params) (w : Word) (d : Data) : Except ErrorKind Data :=
  match controlUnit p.opcodeMap (fields w).opcode with
  | none => .error .undefinedOpcode
  | some c => .ok (datapath p.dmemFill c (fields w) d)

/-- `execute` for the words of a list, one after the other, stopping at the first failure (R113). -/
def executeAll (p : Params) : List Word → Data → Except ErrorKind Data
  | [], d => .ok d
  | w :: ws, d =>
    match execute p w d with
    | .ok d' => executeAll p ws d'
    | .error e => .error e

end Sys2Proof.Machine
end

