-- ==== Sys2Proof/Machine/HostCalls.lean ====
section
/-! DEFINITION. The four calls the core exposes to its host (41_execution_engine.md R120 to R126). -/

namespace Sys2Proof.Machine

/-- The calls of the interface (R120), with the arguments as the host gives them. -/
inductive HostCall where
  | loadInstruction (index word : Nat)
  | loadData (address value : Nat)
  | run
  | snapshotRegisters
deriving DecidableEq, Repr

/-- The run is over: DONE or an error (R119). -/
def Status.terminal : Status → Bool
  | .load => false
  | .running => false
  | .done => true
  | .errUndefinedOpcode => true
  | .errProgramOverrun => true

/-- Steps of the engine until `status` is no longer RUNNING, at most a number of them (R114, R124). -/
def runLoop : Nat → State → State
  | 0, s => s
  | k + 1, s =>
    if s.status = .running then
      match step s with
      | .next t => runLoop k t
      | .fault _ => s
      | .refused _ => s
    else s

/-- `run()` (R124): launch, then step until the run is over; a run takes at most 257 steps (R118). -/
def State.runCall (s : State) : State := runLoop 257 s.launch

/-- What `run()` returns to its caller (R124): success, or one of the two error kinds; `none` before the end. -/
def State.runResult (s : State) : Option (Except ErrorKind Unit) :=
  match s.status with
  | .load => none
  | .running => none
  | .done => some (.ok ())
  | .errUndefinedOpcode => some (.error .undefinedOpcode)
  | .errProgramOverrun => some (.error .programOverrun)

/-- `snapshot_registers()` (R125): `[x[0], x[1], x[2], x[3]]`. -/
def State.snapshot (s : State) : List Byte :=
  [s.readReg .r0, s.readReg .r1, s.readReg .r2, s.readReg .r3]

/-- The effect of a host call on the state (R120 to R126). A call the interface does not allow is refused by name
(R123; notes/assumptions/13.md). -/
def hostCall (c : HostCall) (s : State) : Host.Outcome State Fault Refusal :=
  match c with
  | .loadInstruction index word =>
    if s.status = .load then
      if index < 256 ∧ word < 65536 then .next (s.setInstr index (BitVec.ofNat 16 word))
      else .refused .hostArgumentOutOfRange
    else .refused .hostCallOutOfPhase
  | .loadData address value =>
    if s.status = .load then
      if address < 256 ∧ value < 256 then .next (s.memWrite (BitVec.ofNat 8 address) (BitVec.ofNat 8 value))
      else .refused .hostArgumentOutOfRange
    else .refused .hostCallOutOfPhase
  | .run => if s.status = .load then .next s.runCall else .refused .hostCallOutOfPhase
  | .snapshotRegisters => if s.status = .running then .refused .hostCallOutOfPhase else .next s

/-- What a finished run lets a claim observe: registers, data memory, status and the index it stopped at
(R126, 92_eei_decisions.md D18; 10_state.md R19). -/
structure Observation where
  regs : List Byte
  dmem : DMem
  status : Status
  pc : Nat
deriving DecidableEq, Repr

/-- The observation of a state. -/
def State.observe (s : State) : Observation := ⟨s.snapshot, s.dmem, s.status, s.pc.val⟩

end Sys2Proof.Machine
end

