-- ==== Sys2Proof/Machine/Ports.lean ====
section
/-! DEFINITION. The engine's top-level ports and the clock edge, the spec's hardware framing
(41_execution_engine.md R127; 70_reset_and_hazards.md R190, R195, R205; 92_eei_decisions.md D12, D13;
notes/assumptions/17.md). -/

namespace Sys2Proof.Machine

/-- The input ports sampled at a rising edge of `clk` (R127). A load port is `none` when its enable is 0. -/
structure PortsIn where
  rst : Bool
  start : Bool
  ldI : Option (BitVec 8 × Word)
  ldD : Option (Byte × Byte)
deriving DecidableEq, Repr

/-- The `ld_i` port honoured (R121, R127). -/
def State.portLoadInstr (s : State) : Option (BitVec 8 × Word) → State
  | none => s
  | some (index, word) => s.setInstr index.toNat word

/-- The `ld_d` port honoured (R122, R127). -/
def State.portLoadData (s : State) : Option (Byte × Byte) → State
  | none => s
  | some (addr, value) => s.memWrite addr value

/-- One rising edge of `clk`: `rst` resets from any status to the
values of the machine's parameters (R190, R195); in LOAD the load ports and then `start` are
honoured; in RUNNING the edge is one `step()` (R205); a finished run holds its state until reset (R118, R182). -/
def clockEdge (p : PortsIn) (s : State) : Host.Outcome State Fault Refusal :=
  if p.rst then .next (State.resetWith s.params)
  else
    match s.status with
    | .load =>
      let loaded := (s.portLoadInstr p.ldI).portLoadData p.ldD
      .next (if p.start then loaded.launch else loaded)
    | .running => step s
    | .done => .next s
    | .errUndefinedOpcode => .next s
    | .errProgramOverrun => .next s

/-- The inert signals of the word being executed, "exposed for observation only" (R127; 10_state.md R20). -/
structure Signals where
  branch : Bool
  jump : Bool
  zero : Bool
  carryOut : Bool
deriving DecidableEq, Repr

/-- The output ports (R127). -/
structure PortsOut where
  status : BitVec 3
  pc : BitVec 9
  regs : List Byte
  signals : Option Signals
deriving DecidableEq, Repr

/-- The inert signals: those of the word at `pc` while RUNNING, when it has a control row and is not the sentinel.
Under J `zero` and `carry_out` are the ALU's free values (R87). In every other state the spec gives the ports no
value, and the model none. -/
def State.signals (s : State) : Option Signals :=
  if s.status = .running ∧ s.pc.val < 256 ∧ s.instrAt s.pc.val ≠ sentinelWord then
    match controlUnit s.params.opcodeMap (fields (s.instrAt s.pc.val)).opcode with
    | none => none
    | some c =>
      let out := aluStage c (fields (s.instrAt s.pc.val)) s.data
      some ⟨c.branch, c.jump, out.zero, out.carryOut⟩
  else none

/-- The output ports of a state (R127). -/
def State.portsOut (s : State) : PortsOut :=
  ⟨s.status.code, BitVec.ofNat 9 s.pc.val, s.snapshot, s.signals⟩

end Sys2Proof.Machine
end

