-- ==== Sys2Proof/Safety.lean ====
section
/-! DEFINITION. The terms claims are stated in: a run that is over, a successful run, the invariant of the machine,
what two states share, and what one instruction leaves unchanged. -/

namespace Sys2Proof.Machine

/-- The run is over (41_execution_engine.md R119). -/
abbrev State.Terminal (s : State) : Prop := s.status.terminal = true

/-- The run ended successfully: "only when `status = DONE`" (41_execution_engine.md R119). -/
abbrev State.Successful (s : State) : Prop := s.status = .done

/-- Where the run stands agrees with why: before launch the index is PC_START; a DONE run stands at a sentinel, one ended by
UndefinedOpcode at a word that decodes to nothing, one ended by ProgramOverrun at 256 (60_exceptions.md R175). -/
def State.StopConsistent (s : State) : Prop :=
  match s.status with
  | .load => s.pc = pcStart
  | .running => True
  | .done => s.pc.val < 256 ∧ s.instrAt s.pc.val = sentinelWord
  | .errUndefinedOpcode => s.pc.val < 256 ∧ ∃ e, decodeWith s.params.opcodeMap (s.instrAt s.pc.val) = .error e
  | .errProgramOverrun => s.pc.val = 256

/-- The invariant: a valid OPCODE_MAP (30_encoding.md R56), both memories in canonical form, and the status consistent with where the
run stands. -/
def State.Inv (s : State) : Prop :=
  s.params.opcodeMap.valid = true ∧ Memory.wf s.params.dmemFill 256 s.dmem ∧ Memory.wf s.params.imemFill 256 s.imem ∧
    s.StopConsistent

/-- Every general register reads the same in both states. -/
def SameRegs (s t : State) : Prop := ∀ r : Reg, t.readReg r = s.readReg r

/-- Every data cell reads the same in both states. -/
def SameData (s t : State) : Prop := ∀ a : Byte, t.memRead a = s.memRead a

/-- Every instruction word reads the same in both states. -/
def SameProgram (s t : State) : Prop := ∀ i : Nat, t.instrAt i = s.instrAt i

/-- Register `d` holds `v` afterwards and every other register what it held before. -/
def WritesOnly (s t : State) (d : Reg) (v : Byte) : Prop :=
  ∀ r : Reg, t.readReg r = if r = d then v else s.readReg r

/-- The run goes on at the next index (41_execution_engine.md R117). -/
def GoesOn (s t : State) : Prop := t.pc.val = s.pc.val + 1 ∧ t.status = s.status

/-- How many low bits of a word the instruction of a mnemonic ignores (30_encoding.md R53). -/
def ignoredLowBits : Mnemonic → Nat
  | .add => 6
  | .addi => 0
  | .or => 6
  | .sub => 6
  | .beq => 8
  | .lw => 0
  | .sw => 0
  | .j => 12

end Sys2Proof.Machine
end

