-- ==== Sys2Proof/Certificates/Slice0/Obligations.lean ====
section
/-! DEFINITION. The package's statements for the provers, from the numbered rules of spec/. Encodings are stated for
every valid OPCODE_MAP (30_encoding.md R56) and machines for all values of the open parameters (00_scope.md R5), unless a
docstring says that the defaults are meant. -/

open Sys2Proof Sys2Proof.Machine

/-! ### Encoding -/

/-- Decoding the word of a well-formed instruction gives the instruction back, under every valid map (R51, R66, R70).
An instruction is ill formed only where its word would be the sentinel (R60). -/
def Obligations.DecodeOfEncodeIsTheInstruction : Prop :=
  ∀ (m : OpcodeMap) (i : Instr), m.valid = true → i.wellFormed m = true →
    decodeWith m (encodeWith m i) = .ok i

/-- Every word has one meaning: what decodes to an instruction is exactly that instruction's word (R58, R61, R66), so no
bit of a word is dropped, and what decoding gives is well formed. -/
def Obligations.EncodeOfDecodeIsTheWord : Prop :=
  ∀ (m : OpcodeMap) (w : Word) (i : Instr), decodeWith m w = .ok i →
    encodeWith m i = w ∧ i.wellFormed m = true

/-- Words written out in 95_test_vectors.md, under the default map (notes/assumptions/1.md), decode as the spec says. -/
def Obligations.SpecWordsDecodeAsWritten : Prop :=
  decode 0x0180#16 = .ok (.add .r0 .r1 .r2 0#6) ∧
  decode 0x01BF#16 = .ok (.add .r0 .r1 .r2 0x3F#6) ∧
  decode 0x16C8#16 = .ok (.addi .r1 .r2 0xC8#8) ∧
  decode 0x2EC0#16 = .ok (.or .r3 .r2 .r3 0#6) ∧
  decode 0x3400#16 = .ok (.sub .r1 .r0 .r0 0#6) ∧
  decode 0x467F#16 = .ok (.beq .r1 .r2 0x7F#8) ∧
  decode 0x5BF0#16 = .ok (.lw .r2 .r3 0xF0#8) ∧
  decode 0x611E#16 = .ok (.sw .r0 .r1 30#8) ∧
  decode 0x7FFF#16 = .ok (.j 0xFFF#12) ∧
  decode 0xFFFF#16 = .ok .sentinel ∧
  decode 0x9ABC#16 = .error (.undefinedOpcode 9#4) ∧
  decode 0xFFFE#16 = .error (.undefinedOpcode 15#4)

/-- R70: the decoder is total and takes each field from its fixed bits, whatever the opcode; `rd` and the immediate's top
two bits are the same wires. -/
def Obligations.FieldsStandAtTheirBits : Prop :=
  ∀ w : Word,
    (fields w).opcode.toNat = w.toNat / 4096 ∧
    (fields w).rs.toBits.toNat = w.toNat / 1024 % 4 ∧
    (fields w).rt.toBits.toNat = w.toNat / 256 % 4 ∧
    (fields w).rd.toBits.toNat = w.toNat / 64 % 4 ∧
    (fields w).imm.toNat = w.toNat % 256 ∧
    (fields w).rd.toBits.toNat = (fields w).imm.toNat / 64

/-- R58: a word is classified in this order: the sentinel by the whole word, then an assigned opcode, then undefined; so
0xFFFF is the sentinel under every map, even one that assigns 0xF, and under the default map its opcode is unassigned. -/
def Obligations.WordsAreClassifiedInOrder : Prop :=
  (∀ m : OpcodeMap, decodeWith m 0xFFFF#16 = .ok .sentinel) ∧
  (∀ (m : OpcodeMap) (w : Word) (k : Mnemonic), m.valid = true → w ≠ 0xFFFF#16 →
    (m.number k).toNat = w.toNat / 4096 →
    ∃ i, decodeWith m w = .ok i ∧ i.mnemonic? = some k) ∧
  (∀ (m : OpcodeMap) (w : Word), w ≠ 0xFFFF#16 → (∀ k, (m.number k).toNat ≠ w.toNat / 4096) →
    ∃ o : BitVec 4, o.toNat = w.toNat / 4096 ∧ decodeWith m w = .error (.undefinedOpcode o)) ∧
  (∀ k, (defaultOpcodeMap.number k).toNat ≠ 0xFFFF / 4096)

/-- Under the default map (92_eei_decisions.md D1; notes/assumptions/1.md) the undefined words are exactly 0x8000 to 0xFFFE. -/
def Obligations.UndefinedWordsOfTheDefaultMap : Prop :=
  ∀ w : Word, (∃ e, decode w = .error e) ↔ 0x8000 ≤ w.toNat ∧ w.toNat ≤ 0xFFFE

/-- Two words of one instruction that differ only in the bits it ignores behave alike in every state
(92_eei_decisions.md D11; notes/assumptions/12.md). -/
def Obligations.IgnoredBitsHaveNoEffect : Prop :=
  ∀ (m : OpcodeMap) (w v : Word) (k : Mnemonic), m.valid = true → w ≠ 0xFFFF#16 → v ≠ 0xFFFF#16 →
    (m.number k).toNat = w.toNat / 4096 →
    w.toNat / 2 ^ ignoredLowBits k = v.toNat / 2 ^ ignoredLowBits k →
    ∃ i j, decodeWith m w = .ok i ∧ decodeWith m v = .ok j ∧ ∀ s, exec i s = exec j s

/-! ### The Control Unit and the ALU -/

/-- R75: the Control Unit returns the complete row of R76 for each assigned opcode and `none` for every other. -/
def Obligations.ControlUnitReturnsTheRow : Prop :=
  ∀ m : OpcodeMap, m.valid = true →
    controlUnit m m.add  = some ⟨.add,  true,  false, false, true,  false, false, false, false⟩ ∧
    controlUnit m m.addi = some ⟨.add,  false, true,  false, true,  false, false, false, false⟩ ∧
    controlUnit m m.or   = some ⟨.or,   true,  false, false, true,  false, false, false, false⟩ ∧
    controlUnit m m.sub  = some ⟨.sub,  true,  false, false, true,  false, false, false, false⟩ ∧
    controlUnit m m.beq  = some ⟨.sub,  false, false, false, false, false, false, true,  false⟩ ∧
    controlUnit m m.lw   = some ⟨.add,  false, true,  true,  true,  true,  false, false, false⟩ ∧
    controlUnit m m.sw   = some ⟨.add,  false, true,  false, false, false, true,  false, false⟩ ∧
    controlUnit m m.j    = some ⟨.none, false, false, false, false, false, false, false, true⟩ ∧
    ∀ o : BitVec 4, (∀ k, m.number k ≠ o) → controlUnit m o = none

/-- The eight facts of R77 (which the spec marks as derived), in its order, of every bundle the Control Unit returns. -/
def Obligations.ControlTableFacts : Prop :=
  ∀ (m : OpcodeMap) (o : BitVec 4) (c : ControlBundle), m.valid = true → controlUnit m o = some c →
    ¬ (c.memRead = true ∧ c.memWrite = true) ∧
    (c.memToReg = c.memRead ∧ (c.memRead = true ↔ o = m.lw)) ∧
    (c.memWrite = true → c.regWrite = false) ∧
    (c.regDst = true → c.aluSrc = false ∧ c.memToReg = false) ∧
    (c.memRead = true → c.regWrite = true) ∧
    ¬ (c.branch = true ∧ c.jump = true) ∧
    (c.branch = true ∨ c.jump = true → c.regWrite = false ∧ c.memRead = false ∧ c.memWrite = false) ∧
    ((c.aluOp = .none ↔ o = m.j) ∧
      (c.aluOp = .none → c.regWrite = false ∧ c.memRead = false ∧ c.memWrite = false)) ∧
    (c.regWrite = true ↔ o = m.add ∨ o = m.addi ∨ o = m.or ∨ o = m.sub ∨ o = m.lw)

/-- ADD of the ALU wraps to 8 bits; the carry is 1 iff the wrapped result is less than `a`; and the corner cases of R81. That the
carry is 1 exactly when the true sum is 256 or more is the spec's own inference (R81: "[derived: if `a + b <= 255` then `result =
a + b >= a`; ...]"). -/
def Obligations.AluAddWrapsAndCarries : Prop :=
  (∀ a b : Byte,
    (alu .add a b).result.toNat = (a.toNat + b.toNat) % 256 ∧
    ((alu .add a b).carryOut = true ↔ (alu .add a b).result.toNat < a.toNat) ∧
    ((alu .add a b).carryOut = true ↔ 256 ≤ a.toNat + b.toNat)) ∧
  alu .add 0#8 0#8 = ⟨0#8, true, false⟩ ∧
  alu .add 255#8 1#8 = ⟨0#8, true, true⟩ ∧
  alu .add 128#8 128#8 = ⟨0#8, true, true⟩ ∧
  alu .add 255#8 255#8 = ⟨254#8, false, true⟩ ∧
  ∀ a : Byte, alu .add a 0#8 = ⟨a, decide (a = 0#8), false⟩

/-- R82: SUB wraps to 8 bits; the carry is the borrow, 1 iff `a < b`; and the rule's corner cases. -/
def Obligations.AluSubWrapsAndBorrows : Prop :=
  (∀ a b : Byte,
    (alu .sub a b).result.toNat = (a.toNat + 256 - b.toNat) % 256 ∧
    ((alu .sub a b).carryOut = true ↔ a.toNat < b.toNat)) ∧
  alu .sub 7#8 7#8 = ⟨0#8, true, false⟩ ∧
  alu .sub 0#8 1#8 = ⟨255#8, false, true⟩ ∧
  alu .sub 0#8 255#8 = ⟨1#8, false, true⟩ ∧
  alu .sub 255#8 0#8 = ⟨255#8, false, false⟩ ∧
  alu .sub 0#8 0#8 = ⟨0#8, true, false⟩ ∧
  alu .sub 3#8 5#8 = ⟨254#8, false, true⟩

/-- OR is bitwise; its carry is 0, which is the spec's decision D9 (90_conflicts.md C2; notes/assumptions/10.md); its zero
flag is 1 only for two zeros. -/
def Obligations.AluOrIsBitwise : Prop :=
  ∀ a b : Byte,
    (∀ i : Nat, i < 8 → (alu .or a b).result.getLsbD i = (a.getLsbD i || b.getLsbD i)) ∧
    (alu .or a b).carryOut = false ∧
    ((alu .or a b).zero = true ↔ a = 0#8 ∧ b = 0#8)

/-- `zero` is 1 iff the wrapped result is 0, the same way for each of the ALU's operations ADD, SUB, OR (R84); so 255 + 1
sets it. That for SUB it says that the operands are equal is the spec's own inference (R84: "[derived: `(a - b) mod 256 = 0` iff
`a = b` for `a`, `b` in 0 to 255]"). -/
def Obligations.ZeroFlagFollowsTheResult : Prop :=
  (∀ (op : AluOp) (a b : Byte), op = .add ∨ op = .sub ∨ op = .or →
    ((alu op a b).zero = true ↔ (alu op a b).result.toNat = 0)) ∧
  (alu .add 255#8 1#8).zero = true ∧
  ∀ a b : Byte, (alu .sub a b).zero = true ↔ a = b

/-! ### The engine's blocks, for any bundle -/

/-- R107: the memory stage in priority order, for any bundle: read first, then store, else the ALU result. So (a) a read wins
over a write, (b) the store path writes no register whatever `reg_write` says, (c) `mem_to_reg` does not choose the data; and
in no row of the table does (a) or (b) decide anything. -/
def Obligations.ArbiterPriority : Prop :=
  (∀ (fill : Byte) (c : ControlBundle) (r v : Byte) (m : DMem),
    (c.memRead = true → memoryStage fill c r v m = (some (DMem.read fill m r), m)) ∧
    (c.memRead = false → c.memWrite = true →
      (memoryStage fill c r v m).1 = none ∧
      ∀ a, DMem.read fill (memoryStage fill c r v m).2 a = if a = r then v else DMem.read fill m a) ∧
    (c.memRead = false → c.memWrite = false → memoryStage fill c r v m = (some r, m)) ∧
    ∀ b, memoryStage fill { c with memToReg := b } r v m = memoryStage fill c r v m) ∧
  (∀ (fill : Byte) (c : ControlBundle) (f : Fields) (d : Data), c.memRead = false → c.memWrite = true →
    (datapath fill c f d).regs = d.regs) ∧
  ∀ k : Mnemonic, ¬ ((controlRow k).memRead = true ∧ (controlRow k).memWrite = true) ∧
    ¬ ((controlRow k).memWrite = true ∧ (controlRow k).regWrite = true)

/-- R108: where the store path was not taken, write-back happens only if `reg_write` is set, into `rt` if `mem_to_reg`, else
`rd` or `rt` by `reg_dst`; the other registers keep their values. So ADD, OR and SUB write `rd`, ADDI and LW `rt`. -/
def Obligations.WriteBackDestination : Prop :=
  (∀ (fill : Byte) (c : ControlBundle) (f : Fields) (d : Data), c.memRead = true ∨ c.memWrite = false →
    ∀ r : Reg, (datapath fill c f d).regs.get r =
      if c.regWrite = true ∧ r = (if c.memToReg then f.rt else if c.regDst then f.rd else f.rt) then
        (if c.memRead then DMem.read fill d.dmem (aluStage c f d).result else (aluStage c f d).result)
      else d.regs.get r) ∧
  ∀ rt rd : Reg, destination (controlRow .add) rt rd = rd ∧ destination (controlRow .or) rt rd = rd ∧
    destination (controlRow .sub) rt rd = rd ∧ destination (controlRow .addi) rt rd = rt ∧
    destination (controlRow .lw) rt rd = rt

/-- The port equations of the arbiter and the register file (the spec's hardware framing, 92_eei_decisions.md D13;
notes/assumptions/17.md) do for any bundle what the algorithm does, and nothing when `valid` is 0. -/
def Obligations.PortEquationsAgree : Prop :=
  ∀ (fill : Byte) (valid : Bool) (c : ControlBundle) (f : Fields) (d : Data),
    datapathPorts fill valid c f d = if valid then datapath fill c f d else d

/-- The eight instructions' own meanings are the engine's algorithm under their control rows: for every word that is not the
sentinel, in every machine with a valid map, `execute` and the decoded instruction's `exec` leave the same registers and data memory, and
where the word is undefined `execute` fails. The free values of the ALU under NONE reach no state. -/
def Obligations.EngineAgreesWithTheInstructions : Prop :=
  ∀ (w : Word) (s : State), s.params.opcodeMap.valid = true → w ≠ 0xFFFF#16 →
    (∀ i, decodeWith s.params.opcodeMap w = .ok i →
      ∃ t, exec i s = .next t ∧ execute s.params w s.data = .ok t.data) ∧
    (∀ e, decodeWith s.params.opcodeMap w = .error e → execute s.params w s.data = .error .undefinedOpcode)

/-- R100: in a machine (with its parameters) one instruction is a function of the word, the registers and the data cells alone; its
only failure is UndefinedOpcode; and a step with a fetched word that is not the sentinel is one call of it. -/
def Obligations.ExecuteDependsOnWordRegistersData : Prop :=
  (∀ (i : Instr) (s s' : State), s'.params = s.params → s'.data = s.data →
    ∃ t t', exec i s = .next t ∧ exec i s' = .next t' ∧ t'.data = t.data) ∧
  (∀ (p : Params) (w : Word) (d : Data) (e : ErrorKind), execute p w d = .error e → e = .undefinedOpcode) ∧
  ∀ s : State, s.status = .running → s.pc.val < 256 → s.instrAt s.pc.val ≠ 0xFFFF#16 →
    ∃ t, step s = .next t ∧
      match execute s.params (s.instrAt s.pc.val) s.data with
      | .ok d => t.data = d
      | .error _ => t.data = s.data

/-- R102: where no row matches the opcode, `execute` fails with UndefinedOpcode and the step writes no register and no data
cell; the write enables are gated by `valid`. -/
def Obligations.UndefinedOpcodeWritesNothing : Prop :=
  (∀ (p : Params) (w : Word) (d : Data),
    (execute p w d = .error .undefinedOpcode ↔ controlUnit p.opcodeMap (fields w).opcode = none)) ∧
  (∀ (fill : Byte) (c : ControlBundle) (f : Fields) (d : Data), datapathPorts fill false c f d = d) ∧
  ∀ s : State, s.status = .running → s.pc.val < 256 → s.instrAt s.pc.val ≠ 0xFFFF#16 →
    controlUnit s.params.opcodeMap (fields (s.instrAt s.pc.val)).opcode = none →
    ∃ t, step s = .next t ∧ SameRegs s t ∧ SameData s t

/-! ### The instructions: result, frame and completion -/

/-- R130, whole: ADD completes in every state at an index that holds a word (R16); `x[rd]` becomes the wrapped sum, every other
register, every data cell, the program and the status stay, `pc` advances by 1; its encoding, control row and flags. -/
def Obligations.AddWritesTheWrappedSum : Prop :=
  (∀ (rs rt rd : Reg) (g : BitVec 6) (s : State), s.pc.val < 256 →
    ∃ t, exec (.add rs rt rd g) s = .next t ∧
      WritesOnly s t rd (BitVec.ofNat 8 (((s.readReg rs).toNat + (s.readReg rt).toNat) % 256)) ∧
      SameData s t ∧ SameProgram s t ∧ GoesOn s t) ∧
  (∀ (m : OpcodeMap) (rs rt rd : Reg) (g : BitVec 6), m.valid = true →
    (m.add ++ rs.toBits ++ rt.toBits ++ rd.toBits ++ g : Word) ≠ 0xFFFF#16 →
    decodeWith m (m.add ++ rs.toBits ++ rt.toBits ++ rd.toBits ++ g) = .ok (.add rs rt rd g)) ∧
  controlRow .add = ⟨.add, true, false, false, true, false, false, false, false⟩ ∧
  ∀ (rs rt : Reg) (s : State),
    ((alu .add (s.readReg rs) (s.readReg rt)).zero = true ↔
      (alu .add (s.readReg rs) (s.readReg rt)).result = 0#8) ∧
    ((alu .add (s.readReg rs) (s.readReg rt)).carryOut = true ↔
      256 ≤ (s.readReg rs).toNat + (s.readReg rt).toNat)

/-- OR completes, writing the bitwise OR to `x[rd]` and nothing else but `pc`; its encoding, control row and flags. That its
`carry_out` is 0 is the spec's decision D9 (notes/assumptions/10.md). -/
def Obligations.OrWritesTheBitwiseOr : Prop :=
  (∀ (rs rt rd : Reg) (g : BitVec 6) (s : State), s.pc.val < 256 →
    ∃ t v, exec (.or rs rt rd g) s = .next t ∧ WritesOnly s t rd v ∧
      (∀ i : Nat, i < 8 → v.getLsbD i = ((s.readReg rs).getLsbD i || (s.readReg rt).getLsbD i)) ∧
      SameData s t ∧ SameProgram s t ∧ GoesOn s t) ∧
  (∀ (m : OpcodeMap) (rs rt rd : Reg) (g : BitVec 6), m.valid = true →
    (m.or ++ rs.toBits ++ rt.toBits ++ rd.toBits ++ g : Word) ≠ 0xFFFF#16 →
    decodeWith m (m.or ++ rs.toBits ++ rt.toBits ++ rd.toBits ++ g) = .ok (.or rs rt rd g)) ∧
  controlRow .or = ⟨.or, true, false, false, true, false, false, false, false⟩ ∧
  ∀ (rs rt : Reg) (s : State),
    ((alu .or (s.readReg rs) (s.readReg rt)).zero = true ↔ s.readReg rs = 0#8 ∧ s.readReg rt = 0#8) ∧
    (alu .or (s.readReg rs) (s.readReg rt)).carryOut = false

/-- SUB completes, writing source minus target, wrapped, to `x[rd]` and nothing else but `pc`; its encoding, control row and flags (the
carry is the borrow) (R132). That `SUB rd, rs, rs` clears `x[rd]` is the spec's own inference, a sentence R132 marks as derived. -/
def Obligations.SubWritesTheWrappedDifference : Prop :=
  (∀ (rs rt rd : Reg) (g : BitVec 6) (s : State), s.pc.val < 256 →
    ∃ t, exec (.sub rs rt rd g) s = .next t ∧
      WritesOnly s t rd (BitVec.ofNat 8 (((s.readReg rs).toNat + 256 - (s.readReg rt).toNat) % 256)) ∧
      (rs = rt → t.readReg rd = 0#8) ∧
      SameData s t ∧ SameProgram s t ∧ GoesOn s t) ∧
  (∀ (m : OpcodeMap) (rs rt rd : Reg) (g : BitVec 6), m.valid = true →
    (m.sub ++ rs.toBits ++ rt.toBits ++ rd.toBits ++ g : Word) ≠ 0xFFFF#16 →
    decodeWith m (m.sub ++ rs.toBits ++ rt.toBits ++ rd.toBits ++ g) = .ok (.sub rs rt rd g)) ∧
  controlRow .sub = ⟨.sub, true, false, false, true, false, false, false, false⟩ ∧
  ∀ (rs rt : Reg) (s : State),
    ((alu .sub (s.readReg rs) (s.readReg rt)).zero = true ↔ s.readReg rs = s.readReg rt) ∧
    ((alu .sub (s.readReg rs) (s.readReg rt)).carryOut = true ↔ (s.readReg rs).toNat < (s.readReg rt).toNat)

/-- R140, whole: ADDI completes, writing the wrapped sum of `x[rs]` and the unsigned immediate to `x[rt]` and nothing else but
`pc`, whatever `x[rt]` was and whatever register the `rd` bits name; its encoding, control row and flags. -/
def Obligations.AddiWritesTheWrappedSum : Prop :=
  (∀ (rs rt : Reg) (imm : Byte) (s : State), s.pc.val < 256 →
    ∃ t, exec (.addi rs rt imm) s = .next t ∧
      WritesOnly s t rt (BitVec.ofNat 8 (((s.readReg rs).toNat + imm.toNat) % 256)) ∧
      SameData s t ∧ SameProgram s t ∧ GoesOn s t) ∧
  (∀ (m : OpcodeMap) (rs rt : Reg) (imm : Byte), m.valid = true →
    (m.addi ++ rs.toBits ++ rt.toBits ++ imm : Word) ≠ 0xFFFF#16 →
    decodeWith m (m.addi ++ rs.toBits ++ rt.toBits ++ imm) = .ok (.addi rs rt imm)) ∧
  controlRow .addi = ⟨.add, false, true, false, true, false, false, false, false⟩ ∧
  ∀ (rs : Reg) (imm : Byte) (s : State),
    ((alu .add (s.readReg rs) imm).zero = true ↔ (alu .add (s.readReg rs) imm).result = 0#8) ∧
    ((alu .add (s.readReg rs) imm).carryOut = true ↔ 256 ≤ (s.readReg rs).toNat + imm.toNat)

/-- R150, whole: LW completes, writing the cell at `(x[rs] + imm) mod 256` to `x[rt]` and nothing else but `pc`, with the base
read before `x[rt]` is written; its encoding, control row and the flags of its address. -/
def Obligations.LwLoadsTheCell : Prop :=
  (∀ (rs rt : Reg) (imm : Byte) (s : State), s.pc.val < 256 →
    ∃ t, exec (.lw rs rt imm) s = .next t ∧
      WritesOnly s t rt (s.memRead (effectiveAddress s rs imm)) ∧
      (effectiveAddress s rs imm).toNat = ((s.readReg rs).toNat + imm.toNat) % 256 ∧
      SameData s t ∧ SameProgram s t ∧ GoesOn s t) ∧
  (∀ (m : OpcodeMap) (rs rt : Reg) (imm : Byte), m.valid = true →
    (m.lw ++ rs.toBits ++ rt.toBits ++ imm : Word) ≠ 0xFFFF#16 →
    decodeWith m (m.lw ++ rs.toBits ++ rt.toBits ++ imm) = .ok (.lw rs rt imm)) ∧
  controlRow .lw = ⟨.add, false, true, true, true, true, false, false, false⟩ ∧
  ∀ (rs : Reg) (imm : Byte) (s : State),
    ((alu .add (s.readReg rs) imm).zero = true ↔ effectiveAddress s rs imm = 0#8) ∧
    ((alu .add (s.readReg rs) imm).carryOut = true ↔ 256 ≤ (s.readReg rs).toNat + imm.toNat)

/-- R152, whole: SW completes, storing the register `x[rt]` (not the immediate) in the one cell at `(x[rs] + imm) mod 256`; every
other cell, every register, the program and the status stay, `pc` advances by 1; its encoding, control row and flags. -/
def Obligations.SwStoresTheRegister : Prop :=
  (∀ (rs rt : Reg) (imm : Byte) (s : State), s.pc.val < 256 →
    ∃ t, exec (.sw rs rt imm) s = .next t ∧
      (∀ a : Byte, t.memRead a = if a = effectiveAddress s rs imm then s.readReg rt else s.memRead a) ∧
      (effectiveAddress s rs imm).toNat = ((s.readReg rs).toNat + imm.toNat) % 256 ∧
      SameRegs s t ∧ SameProgram s t ∧ GoesOn s t) ∧
  (∀ (m : OpcodeMap) (rs rt : Reg) (imm : Byte), m.valid = true →
    (m.sw ++ rs.toBits ++ rt.toBits ++ imm : Word) ≠ 0xFFFF#16 →
    decodeWith m (m.sw ++ rs.toBits ++ rt.toBits ++ imm) = .ok (.sw rs rt imm)) ∧
  controlRow .sw = ⟨.add, false, true, false, false, false, true, false, false⟩ ∧
  ∀ (rs : Reg) (imm : Byte) (s : State),
    ((alu .add (s.readReg rs) imm).zero = true ↔ effectiveAddress s rs imm = 0#8) ∧
    ((alu .add (s.readReg rs) imm).carryOut = true ↔ 256 ≤ (s.readReg rs).toNat + imm.toNat)

/-- BEQ completes and is inert, equal operands or not: no register, no data cell, only `pc` advances by 1; its encoding, control row
and the discarded flags (R160). That BEQ only advances `pc` is the spec's decision D10 (R109, R161; notes/assumptions/20.md). -/
def Obligations.BeqOnlyAdvances : Prop :=
  (∀ (rs rt : Reg) (g : BitVec 8) (s : State), s.pc.val < 256 →
    ∃ t, exec (.beq rs rt g) s = .next t ∧
      SameRegs s t ∧ SameData s t ∧ SameProgram s t ∧ GoesOn s t) ∧
  (∀ (m : OpcodeMap) (rs rt : Reg) (g : BitVec 8), m.valid = true →
    (m.beq ++ rs.toBits ++ rt.toBits ++ g : Word) ≠ 0xFFFF#16 →
    decodeWith m (m.beq ++ rs.toBits ++ rt.toBits ++ g) = .ok (.beq rs rt g)) ∧
  controlRow .beq = ⟨.sub, false, false, false, false, false, false, true, false⟩ ∧
  ∀ (rs rt : Reg) (s : State),
    ((alu .sub (s.readReg rs) (s.readReg rt)).zero = true ↔ s.readReg rs = s.readReg rt) ∧
    ((alu .sub (s.readReg rs) (s.readReg rt)).carryOut = true ↔ (s.readReg rs).toNat < (s.readReg rt).toNat)

/-- J completes and is inert, whatever its low 12 bits; its encoding and control row (R162). Its flags are unspecified, so nothing is said
of them. That J only advances `pc` is the spec's decision D10 (R109; notes/assumptions/20.md), and the NONE in its control row is
decision D8 (R79; notes/assumptions/2.md). -/
def Obligations.JOnlyAdvances : Prop :=
  (∀ (g : BitVec 12) (s : State), s.pc.val < 256 →
    ∃ t, exec (.j g) s = .next t ∧ SameRegs s t ∧ SameData s t ∧ SameProgram s t ∧ GoesOn s t) ∧
  (∀ (m : OpcodeMap) (g : BitVec 12), m.valid = true → (m.j ++ g : Word) ≠ 0xFFFF#16 →
    decodeWith m (m.j ++ g) = .ok (.j g)) ∧
  controlRow .j = ⟨.none, false, false, false, false, false, false, false, true⟩

/-- The sentinel completes by ending the run: `status` becomes DONE, `pc`, registers, data memory and program stay, and no further
step follows (that `pc` stays is the spec's decision D16; notes/assumptions/11.md). It is the whole word 0xFFFF and no other. -/
def Obligations.SentinelEndsTheRun : Prop :=
  (∀ s : State, ∃ t, exec .sentinel s = .next t ∧
    t.status = .done ∧ t.pc = s.pc ∧ SameRegs s t ∧ SameData s t ∧ SameProgram s t ∧
    ∃ r, step t = .fault r) ∧
  (∀ s : State, s.status = .running → s.pc.val < 256 → s.instrAt s.pc.val = 0xFFFF#16 →
    step s = exec .sentinel s) ∧
  ∀ (m : OpcodeMap) (w : Word), decodeWith m w = .ok .sentinel ↔ w = 0xFFFF#16

/-! ### What instructions share -/

/-- R13: write-back is the only writer of registers, at most one per instruction: `rd` for ADD, OR, SUB; `rt` for ADDI, LW; none for
SW, BEQ, J; it needs `reg_write` and no store; and no load or snapshot call of the host writes one. -/
def Obligations.AtMostOneRegisterIsWritten : Prop :=
  (∀ (i : Instr) (s t : State), exec i s = .next t →
    match i with
    | .add _ _ rd _ => ∀ r, r ≠ rd → t.readReg r = s.readReg r
    | .addi _ rt _ => ∀ r, r ≠ rt → t.readReg r = s.readReg r
    | .or _ _ rd _ => ∀ r, r ≠ rd → t.readReg r = s.readReg r
    | .sub _ _ rd _ => ∀ r, r ≠ rd → t.readReg r = s.readReg r
    | .beq _ _ _ => SameRegs s t
    | .lw _ rt _ => ∀ r, r ≠ rt → t.readReg r = s.readReg r
    | .sw _ _ _ => SameRegs s t
    | .j _ => SameRegs s t
    | .sentinel => SameRegs s t) ∧
  (∀ (fill : Byte) (c : ControlBundle) (f : Fields) (d : Data),
    c.regWrite = false ∨ (c.memRead = false ∧ c.memWrite = true) → (datapath fill c f d).regs = d.regs) ∧
  ∀ (c : HostCall) (s t : State), c ≠ .run → hostCall c s = .next t → SameRegs s t

/-- R30: the only accesses are the fetch of the word at `pc`, LW's one data read and SW's one data write. Of the program a step
sees only that word; an instruction other than LW and SW neither reads nor writes data memory; LW sees one cell and changes none;
SW changes one cell and its registers see none. -/
def Obligations.AccessesAreFetchLoadStore : Prop :=
  (∀ (s t : State) (p : IMem), s.status = .running → Memory.read s.params.imemFill p s.pc.val = s.instrAt s.pc.val →
    step s = .next t → step { s with imem := p } = .next { t with imem := p }) ∧
  (∀ (i : Instr) (s t : State) (m : DMem), (∀ rs rt imm, i ≠ .lw rs rt imm ∧ i ≠ .sw rs rt imm) →
    exec i s = .next t → SameData s t ∧ exec i { s with dmem := m } = .next { t with dmem := m }) ∧
  (∀ (rs rt : Reg) (imm : Byte) (s t : State) (m : DMem), exec (.lw rs rt imm) s = .next t →
    SameData s t ∧
    (DMem.read s.params.dmemFill m (effectiveAddress s rs imm) = s.memRead (effectiveAddress s rs imm) →
      exec (.lw rs rt imm) { s with dmem := m } = .next { t with dmem := m })) ∧
  ∀ (rs rt : Reg) (imm : Byte) (s t : State) (m : DMem), exec (.sw rs rt imm) s = .next t →
    (∀ a, a ≠ effectiveAddress s rs imm → t.memRead a = s.memRead a) ∧
    ∃ u, exec (.sw rs rt imm) { s with dmem := m } = .next u ∧ SameRegs t u

/-- R38: a data address is the 8-bit sum, always inside the memory, so LW and SW always succeed, in every state; base 0xF0 plus
immediate 0x20 addresses cell 0x10. -/
def Obligations.DataAddressesWrapAndNeverFail : Prop :=
  (∀ (s : State) (rs rt : Reg) (imm : Byte),
    (effectiveAddress s rs imm).toNat = ((s.readReg rs).toNat + imm.toNat) % 256 ∧
    (∃ t, exec (.lw rs rt imm) s = .next t ∧ t.readReg rt = s.memRead (effectiveAddress s rs imm)) ∧
    (∃ t, exec (.sw rs rt imm) s = .next t ∧ t.memRead (effectiveAddress s rs imm) = s.readReg rt)) ∧
  ∀ (s : State) (rs : Reg), s.readReg rs = 0xF0#8 → effectiveAddress s rs 0x20#8 = 0x10#8

/-- R202: there is no store-to-load delay; an LW that follows an SW to the same address returns the stored value. -/
def Obligations.LoadAfterStoreReturnsTheStoredValue : Prop :=
  ∀ (rs rt rs' rt' : Reg) (imm imm' : Byte) (s t : State), exec (.sw rs rt imm) s = .next t →
    effectiveAddress t rs' imm' = effectiveAddress s rs imm →
    ∃ u, exec (.lw rs' rt' imm') t = .next u ∧ u.readReg rt' = s.readReg rt

/-- R43: fetch never sees a store, and the program a run executes is the image it started with, however many steps it takes. -/
def Obligations.FetchNeverSeesAStore : Prop :=
  (∀ (rs rt : Reg) (imm : Byte) (s t : State), exec (.sw rs rt imm) s = .next t →
    ∀ i, t.instrAt i = s.instrAt i) ∧
  ∀ (k : Nat) (s t : State), Host.Core.run core k s = .next t → t.imem = s.imem

/-! ### The run loop, the errors, the end of a run -/

/-- While RUNNING, a step at an index whose word decodes to an instruction is `exec` of that instruction. -/
def Obligations.StepRunsTheDecodedInstruction : Prop :=
  ∀ (s : State) (i : Instr), s.status = .running → s.pc.val < 256 →
    decodeWith s.params.opcodeMap (s.instrAt s.pc.val) = .ok i → step s = exec i s

/-- The word of any well-formed instruction, placed where the next fetch is, is what the next step runs, from any state of any machine
with a valid map (the placing stands for the host's load and `run()`: notes/assumptions/16.md). -/
def Obligations.PlacedInstructionRuns : Prop :=
  ∀ (s : State) (i : Instr), s.params.opcodeMap.valid = true → i.wellFormed s.params.opcodeMap = true →
    step (s.withFetchWord 16 (encodeWith s.params.opcodeMap i).toNat) =
      exec i (s.withFetchWord 16 (encodeWith s.params.opcodeMap i).toNat) ∧
    (s.withFetchWord 16 (encodeWith s.params.opcodeMap i).toNat).data = s.data

/-- The one event of a step while RUNNING, in the fixed order of R177 (whose order the spec gives as decision D21 where the source
does not force it; where `pc` stands afterwards is decision D16, the halt is D2: notes/assumptions/7.md and 11.md): overrun before
fetch, the sentinel before the opcode, an undefined opcode, else execution, which goes on. -/
def Obligations.StepEventsInOrder : Prop :=
  ∀ s : State, s.status = .running →
    (s.pc.val = 256 →
      step s = .next { s with status := .errProgramOverrun }) ∧
    (s.pc.val < 256 → s.instrAt s.pc.val = 0xFFFF#16 →
      step s = .next { s with status := .done }) ∧
    (s.pc.val < 256 → s.instrAt s.pc.val ≠ 0xFFFF#16 →
      controlUnit s.params.opcodeMap (fields (s.instrAt s.pc.val)).opcode = none →
      step s = .next { s with status := .errUndefinedOpcode }) ∧
    (s.pc.val < 256 → s.instrAt s.pc.val ≠ 0xFFFF#16 →
      controlUnit s.params.opcodeMap (fields (s.instrAt s.pc.val)).opcode ≠ none →
      ∃ t, step s = .next t ∧ t.status = .running ∧ t.pc.val = s.pc.val + 1)

/-- What a step answers in every status: a running machine always has a next state, whatever its registers and memories; a finished
run has none; and in LOAD the step is the launch, RUNNING at index 0 with registers, data, program and parameters unchanged. That a step
in LOAD is the host's `run()` call is the model's choice (notes/assumptions/15.md), the start at 0 the spec's decision D3. -/
def Obligations.RunningAlwaysSteps : Prop :=
  ∀ s : State, (s.status = .running → ∃ t, step s = .next t) ∧
    (s.Terminal → step s = .fault (.runOver s.status)) ∧
    (s.status = .load → ∃ t, step s = .next t ∧ t.status = .running ∧ t.pc.val = 0 ∧
      SameRegs s t ∧ SameData s t ∧ SameProgram s t ∧ t.params = s.params)

/-- A machine in LOAD runs its program by its own steps: at most 258 of them, the launch included, end in exactly the state `run()`
leaves (R118, R124). That the first of them is the launch is the model's choice (notes/assumptions/15.md). -/
def Obligations.StepsFromLoadReachTheRunCall : Prop :=
  ∀ s : State, s.status = .load →
    ∃ k, k ≤ 258 ∧ Host.Core.run core k s = .next s.runCall ∧ s.runCall.Terminal

/-- The parameters and, in a run, the program are fixed (00_scope.md R5, R9; 10_state.md R23): no instruction and no number of steps changes
either, no host call and no clock edge changes the parameters, and only `load_instruction` changes the program. A step is `runStep`, on the
architectural state, under the two as its argument. -/
def Obligations.ParametersAndProgramAreFixed : Prop :=
  (∀ (i : Instr) (s t : State), exec i s = .next t → t.toSetup = s.toSetup) ∧
  (∀ (k : Nat) (s t : State), Host.Core.run core k s = .next t → t.toSetup = s.toSetup) ∧
  (∀ s t : State, step s = .next t ↔
    t.toSetup = s.toSetup ∧ runStep s.toSetup s.toRunState = .next t.toRunState) ∧
  (∀ (c : HostCall) (s t : State), hostCall c s = .next t →
    t.params = s.params ∧ ((∀ index word, c ≠ .loadInstruction index word) → t.imem = s.imem)) ∧
  ∀ (p : PortsIn) (s t : State), clockEdge p s = .next t → t.params = s.params

/-- `pc` never decreases and never wraps: over any number of steps of a started run it only grows, by one for each word executed, and
it stays where the run stops (the last is the spec's decision D16; notes/assumptions/11.md). -/
def Obligations.ProgramCounterOnlyAdvances : Prop :=
  (∀ s t : State, s.status = .running → step s = .next t →
    (t.pc.val = s.pc.val + 1 ∧ t.status = .running) ∨ (t.pc = s.pc ∧ t.Terminal ∧ t.data = s.data)) ∧
  ∀ (k : Nat) (s t : State), s.status ≠ .load → Host.Core.run core k s = .next t →
    s.pc.val ≤ t.pc.val ∧ t.pc.val ≤ s.pc.val + k

/-- Every run ends: from any RUNNING state, within `257 - pc` steps, so within 257 from index 0 (R118, which the spec marks as
derived). No premise on registers, memories or program. -/
def Obligations.EveryRunEnds : Prop :=
  ∀ s : State, s.status = .running →
    ∃ (k : Nat) (t : State), k ≤ 257 - s.pc.val ∧ Host.Core.run core k s = .next t ∧ t.Terminal

/-- What a run computes (R119, which the spec marks as derived): after `run()` the registers and data memory hold the combined effect
of exactly the words at indices 0 to `pc - 1`, each executed once, in order, by the pure `execute`; none of them is the sentinel; and
the status agrees with where the run stands. That a run starts at index 0 is the spec's decision D3 (notes/assumptions/6.md). -/
def Obligations.RunIsTheStraightLineProgram : Prop :=
  ∀ s : State, s.status = .load →
    s.runCall.Terminal ∧ s.runCall.StopConsistent ∧ s.runCall.imem = s.imem ∧
    executeAll s.params ((List.range s.runCall.pc.val).map s.instrAt) s.data = .ok s.runCall.data ∧
    ∀ i, i < s.runCall.pc.val → s.instrAt i ≠ 0xFFFF#16

/-- Taking an error (R179; the codes and the halt are the spec's decisions D4, D2, D16: notes/assumptions/7.md, 11.md, 14.md): only
`status` changes, to 3 for UndefinedOpcode at the offending word and to 4 for ProgramOverrun at 256, and no further step follows. -/
def Obligations.ErrorsOnlySetTheStatus : Prop :=
  (∀ s : State, s.status = .running → s.pc.val < 256 →
    (∃ e, decodeWith s.params.opcodeMap (s.instrAt s.pc.val) = .error e) →
    ∃ t, step s = .next t ∧ t.status.code = 3#3 ∧ t.pc = s.pc ∧ SameRegs s t ∧ SameData s t ∧ SameProgram s t ∧
      ∃ r, step t = .fault r) ∧
  ∀ s : State, s.status = .running → s.pc.val = 256 →
    ∃ t, step s = .next t ∧ t.status.code = 4#3 ∧ t.pc.val = 256 ∧ SameRegs s t ∧ SameData s t ∧ SameProgram s t ∧
      ∃ r, step t = .fault r

/-- There is no return from an error and no retry (R182): no step, no host call and no clock edge without `rst` changes an error state;
`rst` gives the reset state of the machine's parameters. The clock edge and `rst` are the spec's own framing, decisions D12 and D13, which
R182 does not state (notes/assumptions/17.md). -/
def Obligations.ResetIsTheOnlyWayOutOfAnError : Prop :=
  ∀ s : State, s.status = .errUndefinedOpcode ∨ s.status = .errProgramOverrun →
    (∀ t, step s ≠ .next t) ∧
    (∀ (c : HostCall) (t : State), hostCall c s = .next t → t = s) ∧
    (∀ p : PortsIn, p.rst = false → clockEdge p s = .next s) ∧
    ∀ p : PortsIn, p.rst = true → clockEdge p s = .next (State.resetWith s.params)

/-! ### The host -/

/-- R121: `load_instruction` sets the one word of its index, to any 16-bit value, and changes nothing else; so the last call for an index
wins and calls for different indices may come in any order. It is allowed only in the load phase. -/
def Obligations.LoadInstructionSetsOneWord : Prop :=
  ∀ (s : State) (index word : Nat), index < 256 → word < 65536 →
    (s.status = .load → ∃ t, hostCall (.loadInstruction index word) s = .next t ∧
      (∀ i, t.instrAt i = if i = index then BitVec.ofNat 16 word else s.instrAt i) ∧
      SameRegs s t ∧ SameData s t ∧ t.pc = s.pc ∧ t.status = s.status) ∧
    (s.status ≠ .load → ∀ t, hostCall (.loadInstruction index word) s ≠ .next t)

/-- R122: `load_data` sets the one cell of its address and changes nothing else; the last call for an address wins. It is allowed only in
the load phase. -/
def Obligations.LoadDataSetsOneCell : Prop :=
  ∀ (s : State) (address value : Nat), address < 256 → value < 256 →
    (s.status = .load → ∃ t, hostCall (.loadData address value) s = .next t ∧
      (∀ a : Byte, t.memRead a = if a.toNat = address then BitVec.ofNat 8 value else s.memRead a) ∧
      SameRegs s t ∧ SameProgram s t ∧ t.pc = s.pc ∧ t.status = s.status) ∧
    (s.status ≠ .load → ∀ t, hostCall (.loadData address value) s ≠ .next t)

/-- Host misuse is refused by name, as the spec decides (92_eei_decisions.md D15; notes/assumptions/13.md): arguments out of range, loads
outside the load phase, a second `run()`, any call during a run; a snapshot at any other time changes nothing. -/
def Obligations.HostMisuseIsRefused : Prop :=
  (∀ (s : State) (index word : Nat), s.status = .load → 256 ≤ index ∨ 65536 ≤ word →
    hostCall (.loadInstruction index word) s = .refused .hostArgumentOutOfRange) ∧
  (∀ (s : State) (address value : Nat), s.status = .load → 256 ≤ address ∨ 256 ≤ value →
    hostCall (.loadData address value) s = .refused .hostArgumentOutOfRange) ∧
  (∀ (s : State) (c : HostCall), s.status ≠ .load → c ≠ .snapshotRegisters →
    hostCall c s = .refused .hostCallOutOfPhase) ∧
  (∀ s : State, s.status = .running → hostCall .snapshotRegisters s = .refused .hostCallOutOfPhase) ∧
  ∀ s : State, s.status ≠ .running → hostCall .snapshotRegisters s = .next s

/-- `run()` always returns (R124; its start at 0 is the spec's decision D3, notes/assumptions/6.md): from every load-phase state it ends the
run, and what it returns says how: success exactly for DONE, else the error kind. -/
def Obligations.RunCallReturnsItsOutcome : Prop :=
  ∀ s : State, s.status = .load → ∃ t, hostCall .run s = .next t ∧ t.Terminal ∧
    (t.runResult = some (.ok ()) ↔ t.Successful) ∧
    (t.runResult = some (.error .undefinedOpcode) ↔ t.status = .errUndefinedOpcode) ∧
    (t.runResult = some (.error .programOverrun) ↔ t.status = .errProgramOverrun)

/-- The clock edge of the spec's hardware framing (92_eei_decisions.md D12; notes/assumptions/17.md): `rst` from any status; in LOAD the
load ports and `start` are honoured; in RUNNING the edge is one step and the other ports are ignored; a finished run holds. -/
def Obligations.ClockEdgeHonoursPortsByPhase : Prop :=
  ∀ (p : PortsIn) (s : State),
    (p.rst = true → clockEdge p s = .next (State.resetWith s.params)) ∧
    (p.rst = false → s.status = .running → clockEdge p s = step s) ∧
    (p.rst = false → s.status = .load → ∃ t, clockEdge p s = .next t ∧
      SameRegs s t ∧
      (∀ i : Nat, t.instrAt i = match p.ldI with
        | none => s.instrAt i
        | some (index, word) => if i = index.toNat then word else s.instrAt i) ∧
      (∀ a : Byte, t.memRead a = match p.ldD with
        | none => s.memRead a
        | some (address, value) => if a = address then value else s.memRead a) ∧
      (p.start = true → t.status = .running ∧ t.pc.val = 0) ∧
      (p.start = false → t.status = .load ∧ t.pc = s.pc)) ∧
    (p.rst = false → s.Terminal → clockEdge p s = .next s)

/-- The inert signals while BEQ or J is at `pc` (R109, R127, D13; notes/assumptions/17.md): BEQ raises `branch` with `zero` saying whether the
operands are equal and `carry_out` the borrow; J raises `jump`, with flags the spec leaves unspecified (any values). -/
def Obligations.ControlInstructionsRaiseTheirSignals : Prop :=
  ∀ s : State, s.status = .running → s.pc.val < 256 →
    (∀ rs rt g, decodeWith s.params.opcodeMap (s.instrAt s.pc.val) = .ok (.beq rs rt g) →
      s.signals = some ⟨true, false, decide (s.readReg rs = s.readReg rt),
        decide ((s.readReg rs).toNat < (s.readReg rt).toNat)⟩) ∧
    (∀ g, decodeWith s.params.opcodeMap (s.instrAt s.pc.val) = .ok (.j g) →
      ∃ z c, s.signals = some ⟨false, true, z, c⟩)

/-! ### Reset and the invariant -/

/-- What reset leaves: LOAD, index 0, and for every machine its own REG_INIT in the registers, DMEM_FILL in every cell, IMEM_FILL in every
word, its parameters kept; with the default parameters 0, 0x00 and 0xFFFF. All are open parameters, the spec's defaults and its decisions D3
to D7, none a source's statement (notes/assumptions/3.md to 6.md and 14.md). -/
def Obligations.ResetLeavesTheDefaults : Prop :=
  (∀ p : Params, (State.resetWith p).status = .load ∧ (State.resetWith p).pc.val = 0 ∧
    (∀ r : Reg, (State.resetWith p).readReg r = p.regInit.get r) ∧
    (∀ a : Byte, (State.resetWith p).memRead a = p.dmemFill) ∧
    (∀ i : Nat, (State.resetWith p).instrAt i = p.imemFill) ∧ (State.resetWith p).params = p) ∧
  State.reset.status = .load ∧ State.reset.pc.val = 0 ∧ (∀ r : Reg, State.reset.readReg r = 0#8) ∧
  (∀ a : Byte, State.reset.memRead a = 0#8) ∧ ∀ i : Nat, State.reset.instrAt i = 0xFFFF#16

/-- The invariant holds at reset, with the default parameters and with any whose OPCODE_MAP is valid. -/
def Obligations.ResetMeetsTheInvariant : Prop :=
  State.reset.Inv ∧ ∀ p : Params, p.opcodeMap.valid = true → (State.resetWith p).Inv

/-- Every step keeps the invariant: the OPCODE_MAP stays valid, both memories stay in canonical form inside their 256 cells, and a status that says the run has not begun
or is over agrees with where `pc` stands (a DONE run at a sentinel, an undefined opcode at a word that decodes to nothing, an overrun
at 256). -/
def Obligations.EveryStepKeepsTheInvariant : Prop :=
  ∀ s t : State, s.Inv → step s = .next t → t.Inv

/-- Every accepted host call and every clock edge keep the invariant. -/
def Obligations.HostAndClockKeepTheInvariant : Prop :=
  (∀ (c : HostCall) (s t : State), s.Inv → hostCall c s = .next t → t.Inv) ∧
  ∀ (p : PortsIn) (s t : State), s.Inv → clockEdge p s = .next t → t.Inv

/-- The model's canonical form of a memory (notes/assumptions/8.md) is canonical: memories that read alike are equal data. -/
def Obligations.CanonicalMemoriesThatReadAlikeAreEqual : Prop :=
  ∀ (w size : Nat) (fill : BitVec w) (m m' : List (Nat × BitVec w)),
    Memory.wf fill size m → Memory.wf fill size m' → (∀ a, Memory.read fill m a = Memory.read fill m' a) → m = m'
end

