-- ==== Sys2Proof/Laws/Decode.lean ====
section
/-! SUPPORT. What the decoder's and the encoder's parts do: register fields, the fields of a packed word, the opcode lookup. -/

namespace Sys2Proof

@[simp] theorem Reg.ofBits_toBits (r : Reg) : Reg.ofBits r.toBits = r := by cases r <;> rfl

@[simp] theorem Reg.toBits_ofBits (b : BitVec 2) : (Reg.ofBits b).toBits = b := by
  revert b; decide

/-- Each field of a packed word is what was packed into it (R51, R66). -/
theorem fields_packWord (opcode : BitVec 4) (rs rt : Reg) (low : BitVec 8) :
    fields (packWord opcode rs rt low) = ⟨opcode, rs, rt, Reg.ofBits (low.extractLsb' 6 2), low⟩ := by
  have h12 : (packWord opcode rs rt low).extractLsb' 12 4 = opcode := by
    refine BitVec.eq_of_getLsbD_eq fun i hi => ?_
    simp only [packWord, BitVec.getLsbD_extractLsb', BitVec.getLsbD_append]
    interval_cases i <;> simp
  have h10 : (packWord opcode rs rt low).extractLsb' 10 2 = rs.toBits := by
    refine BitVec.eq_of_getLsbD_eq fun i hi => ?_
    simp only [packWord, BitVec.getLsbD_extractLsb', BitVec.getLsbD_append]
    interval_cases i <;> simp
  have h8 : (packWord opcode rs rt low).extractLsb' 8 2 = rt.toBits := by
    refine BitVec.eq_of_getLsbD_eq fun i hi => ?_
    simp only [packWord, BitVec.getLsbD_extractLsb', BitVec.getLsbD_append]
    interval_cases i <;> simp
  have h6 : (packWord opcode rs rt low).extractLsb' 6 2 = low.extractLsb' 6 2 := by
    refine BitVec.eq_of_getLsbD_eq fun i hi => ?_
    simp only [packWord, BitVec.getLsbD_extractLsb', BitVec.getLsbD_append]
    interval_cases i <;> simp
  have h0 : (packWord opcode rs rt low).extractLsb' 0 8 = low := by
    refine BitVec.eq_of_getLsbD_eq fun i hi => ?_
    simp only [packWord, BitVec.getLsbD_extractLsb', BitVec.getLsbD_append]
    interval_cases i <;> simp
  simp [fields, h12, h10, h8, h6, h0]

/-- A looked-up mnemonic is one whose number the opcode is. -/
theorem OpcodeMap.number_of_lookup {m : OpcodeMap} {o : BitVec 4} {k : Mnemonic} (h : m.lookup o = some k) :
    m.number k = o := by
  unfold OpcodeMap.lookup at h
  repeat' split at h
  all_goals first
    | (obtain rfl := Option.some.inj h; simp_all [OpcodeMap.number])
    | cases h

/-- In an injective map the lookup of a mnemonic's number is that mnemonic (R56). -/
theorem OpcodeMap.lookup_number {m : OpcodeMap} (hm : m.valid = true) (k : Mnemonic) :
    m.lookup (m.number k) = some k := by
  simp only [OpcodeMap.valid, OpcodeMap.numbers, Bool.and_eq_true, decide_eq_true_eq, List.nodup_cons, List.mem_cons,
    List.not_mem_nil, or_false, not_or] at hm
  obtain ⟨⟨h1, h2, h3, h4, h5, h6, h7, -⟩, -⟩ := hm
  cases k <;> simp_all [OpcodeMap.lookup, OpcodeMap.number, eq_comm]

theorem defaultOpcodeMap_valid : defaultOpcodeMap.valid = true := by decide

end Sys2Proof
end

