-- ==== Sys2Proof/Laws/Flags.lean ====
section
/-! SUPPORT. What the ALU and the operand forms give, in bit-vector terms, one lemma for each. -/

namespace Sys2Proof.Machine

@[simp] theorem alu_add_result (a b : Byte) : (alu .add a b).result = a + b := rfl
@[simp] theorem alu_sub_result (a b : Byte) : (alu .sub a b).result = a - b := rfl
@[simp] theorem alu_or_result (a b : Byte) : (alu .or a b).result = a ||| b := rfl

theorem alu_add_carryOut (a b : Byte) : (alu .add a b).carryOut = decide ((a + b).toNat < a.toNat) := rfl
theorem alu_sub_carryOut (a b : Byte) : (alu .sub a b).carryOut = decide (a.toNat < b.toNat) := rfl
theorem alu_or_carryOut (a b : Byte) : (alu .or a b).carryOut = false := rfl

theorem zeroFlag_eq_true (r : Byte) : zeroFlag r = true ↔ r = 0#8 := decide_eq_true_iff

/-- The effective address is the wrapped sum of base and immediate (R150). -/
theorem effectiveAddress_eq (s : State) (rs : Reg) (imm : Byte) :
    effectiveAddress s rs imm = s.readReg rs + imm := rfl

theorem operandB_immediate {c : ControlBundle} (h : c.aluSrc = true) (imm b : Byte) : operandB c imm b = imm := by
  simp [operandB, h]

theorem operandB_register {c : ControlBundle} (h : c.aluSrc = false) (imm b : Byte) : operandB c imm b = b := by
  simp [operandB, h]

theorem destination_rd {c : ControlBundle} (h : c.memToReg = false) (h' : c.regDst = true) (rt rd : Reg) :
    destination c rt rd = rd := by
  simp [destination, h, h']

theorem destination_rt {c : ControlBundle} (h : c.memToReg = true ∨ c.regDst = false) (rt rd : Reg) :
    destination c rt rd = rt := by
  rcases h with h | h <;> simp [destination, h]

end Sys2Proof.Machine
end

