-- ==== Sys2Proof/Laws/State.lean ====
section
/-! SUPPORT. One lemma per field per update of the state, each true by `rfl`, so that no proof unfolds a record update. -/

namespace Sys2Proof.Machine

/-! ### writeReg -/

@[simp] theorem State.writeReg_regs (s : State) (r : Reg) (v : Byte) : (s.writeReg r v).regs = s.regs.set r v := rfl
@[simp] theorem State.writeReg_pc (s : State) (r : Reg) (v : Byte) : (s.writeReg r v).pc = s.pc := rfl
@[simp] theorem State.writeReg_status (s : State) (r : Reg) (v : Byte) : (s.writeReg r v).status = s.status := rfl
@[simp] theorem State.writeReg_dmem (s : State) (r : Reg) (v : Byte) : (s.writeReg r v).dmem = s.dmem := rfl
@[simp] theorem State.writeReg_imem (s : State) (r : Reg) (v : Byte) : (s.writeReg r v).imem = s.imem := rfl
@[simp] theorem State.writeReg_params (s : State) (r : Reg) (v : Byte) : (s.writeReg r v).params = s.params := rfl

/-! ### memWrite -/

@[simp] theorem State.memWrite_regs (s : State) (a v : Byte) : (s.memWrite a v).regs = s.regs := rfl
@[simp] theorem State.memWrite_pc (s : State) (a v : Byte) : (s.memWrite a v).pc = s.pc := rfl
@[simp] theorem State.memWrite_status (s : State) (a v : Byte) : (s.memWrite a v).status = s.status := rfl
@[simp] theorem State.memWrite_dmem (s : State) (a v : Byte) : (s.memWrite a v).dmem = DMem.write s.params.dmemFill s.dmem a v := rfl
@[simp] theorem State.memWrite_imem (s : State) (a v : Byte) : (s.memWrite a v).imem = s.imem := rfl
@[simp] theorem State.memWrite_params (s : State) (a v : Byte) : (s.memWrite a v).params = s.params := rfl

/-! ### setInstr -/

@[simp] theorem State.setInstr_regs (s : State) (i : Nat) (w : Word) : (s.setInstr i w).regs = s.regs := rfl
@[simp] theorem State.setInstr_pc (s : State) (i : Nat) (w : Word) : (s.setInstr i w).pc = s.pc := rfl
@[simp] theorem State.setInstr_status (s : State) (i : Nat) (w : Word) : (s.setInstr i w).status = s.status := rfl
@[simp] theorem State.setInstr_dmem (s : State) (i : Nat) (w : Word) : (s.setInstr i w).dmem = s.dmem := rfl
@[simp] theorem State.setInstr_imem (s : State) (i : Nat) (w : Word) :
    (s.setInstr i w).imem = Memory.write s.params.imemFill s.imem i w := rfl
@[simp] theorem State.setInstr_params (s : State) (i : Nat) (w : Word) : (s.setInstr i w).params = s.params := rfl

/-! ### advance -/

@[simp] theorem State.advance_regs (s : State) : s.advance.regs = s.regs := rfl
@[simp] theorem State.advance_pc (s : State) : s.advance.pc = Pc.next s.pc := rfl
@[simp] theorem State.advance_status (s : State) : s.advance.status = s.status := rfl
@[simp] theorem State.advance_dmem (s : State) : s.advance.dmem = s.dmem := rfl
@[simp] theorem State.advance_imem (s : State) : s.advance.imem = s.imem := rfl
@[simp] theorem State.advance_params (s : State) : s.advance.params = s.params := rfl

/-! ### takeError -/

@[simp] theorem State.takeError_regs (s : State) (e : ErrorKind) : (s.takeError e).regs = s.regs := rfl
@[simp] theorem State.takeError_pc (s : State) (e : ErrorKind) : (s.takeError e).pc = s.pc := rfl
@[simp] theorem State.takeError_status (s : State) (e : ErrorKind) : (s.takeError e).status = e.status := rfl
@[simp] theorem State.takeError_dmem (s : State) (e : ErrorKind) : (s.takeError e).dmem = s.dmem := rfl
@[simp] theorem State.takeError_imem (s : State) (e : ErrorKind) : (s.takeError e).imem = s.imem := rfl
@[simp] theorem State.takeError_params (s : State) (e : ErrorKind) : (s.takeError e).params = s.params := rfl

/-! ### finish -/

@[simp] theorem State.finish_regs (s : State) : s.finish.regs = s.regs := rfl
@[simp] theorem State.finish_pc (s : State) : s.finish.pc = s.pc := rfl
@[simp] theorem State.finish_status (s : State) : s.finish.status = .done := rfl
@[simp] theorem State.finish_dmem (s : State) : s.finish.dmem = s.dmem := rfl
@[simp] theorem State.finish_imem (s : State) : s.finish.imem = s.imem := rfl
@[simp] theorem State.finish_params (s : State) : s.finish.params = s.params := rfl

/-! ### launch -/

@[simp] theorem State.launch_regs (s : State) : s.launch.regs = s.regs := rfl
@[simp] theorem State.launch_pc (s : State) : s.launch.pc = pcStart := rfl
@[simp] theorem State.launch_status (s : State) : s.launch.status = .running := rfl
@[simp] theorem State.launch_dmem (s : State) : s.launch.dmem = s.dmem := rfl
@[simp] theorem State.launch_imem (s : State) : s.launch.imem = s.imem := rfl
@[simp] theorem State.launch_params (s : State) : s.launch.params = s.params := rfl

/-! ### What the operations leave unread: registers, data cells and instruction words -/

@[simp] theorem State.memRead_writeReg (s : State) (d : Reg) (v : Byte) (a : Byte) : (s.writeReg d v).memRead a = s.memRead a := rfl
@[simp] theorem State.instrAt_writeReg (s : State) (d : Reg) (v : Byte) (i : Nat) : (s.writeReg d v).instrAt i = s.instrAt i := rfl
@[simp] theorem State.readReg_memWrite (s : State) (b v : Byte) (r : Reg) : (s.memWrite b v).readReg r = s.readReg r := rfl
@[simp] theorem State.instrAt_memWrite (s : State) (b v : Byte) (i : Nat) : (s.memWrite b v).instrAt i = s.instrAt i := rfl
@[simp] theorem State.readReg_setInstr (s : State) (k : Nat) (w : Word) (r : Reg) : (s.setInstr k w).readReg r = s.readReg r := rfl
@[simp] theorem State.memRead_setInstr (s : State) (k : Nat) (w : Word) (a : Byte) : (s.setInstr k w).memRead a = s.memRead a := rfl
@[simp] theorem State.readReg_advance (s : State) (r : Reg) : s.advance.readReg r = s.readReg r := rfl
@[simp] theorem State.memRead_advance (s : State) (a : Byte) : s.advance.memRead a = s.memRead a := rfl
@[simp] theorem State.instrAt_advance (s : State) (i : Nat) : s.advance.instrAt i = s.instrAt i := rfl
@[simp] theorem State.readReg_takeError (s : State) (e : ErrorKind) (r : Reg) : (s.takeError e).readReg r = s.readReg r := rfl
@[simp] theorem State.memRead_takeError (s : State) (e : ErrorKind) (a : Byte) : (s.takeError e).memRead a = s.memRead a := rfl
@[simp] theorem State.instrAt_takeError (s : State) (e : ErrorKind) (i : Nat) : (s.takeError e).instrAt i = s.instrAt i := rfl
@[simp] theorem State.readReg_finish (s : State) (r : Reg) : s.finish.readReg r = s.readReg r := rfl
@[simp] theorem State.memRead_finish (s : State) (a : Byte) : s.finish.memRead a = s.memRead a := rfl
@[simp] theorem State.instrAt_finish (s : State) (i : Nat) : s.finish.instrAt i = s.instrAt i := rfl
@[simp] theorem State.readReg_launch (s : State) (r : Reg) : s.launch.readReg r = s.readReg r := rfl
@[simp] theorem State.memRead_launch (s : State) (a : Byte) : s.launch.memRead a = s.memRead a := rfl
@[simp] theorem State.instrAt_launch (s : State) (i : Nat) : s.launch.instrAt i = s.instrAt i := rfl

/-! ### resetWith -/

@[simp] theorem State.resetWith_regs (p : Params) : (State.resetWith p).regs = p.regInit := rfl
@[simp] theorem State.resetWith_pc (p : Params) : (State.resetWith p).pc = pcStart := rfl
@[simp] theorem State.resetWith_status (p : Params) : (State.resetWith p).status = .load := rfl
@[simp] theorem State.resetWith_dmem (p : Params) : (State.resetWith p).dmem = [] := rfl
@[simp] theorem State.resetWith_imem (p : Params) : (State.resetWith p).imem = [] := rfl
@[simp] theorem State.resetWith_params (p : Params) : (State.resetWith p).params = p := rfl

end Sys2Proof.Machine
end

