-- ==== Sys2Proof/Laws/Ops.lean ====
section
/-! SUPPORT. What the named operations do, one lemma for each: registers, memories, the canonical form, the program
counter. -/

namespace Sys2Proof.Machine

/-! ### Registers -/

theorem RegFile.get_set (f : RegFile) (d : Reg) (v : Byte) (r : Reg) :
    (f.set d v).get r = if r = d then v else f.get r := by
  cases d <;> cases r <;> rfl

theorem RegFile.ext_get {f g : RegFile} (h : ∀ r, f.get r = g.get r) : f = g := by
  obtain ⟨a, b, c, d⟩ := f
  obtain ⟨a', b', c', d'⟩ := g
  obtain rfl : a = a' := h .r0
  obtain rfl : b = b' := h .r1
  obtain rfl : c = c' := h .r2
  obtain rfl : d = d' := h .r3
  rfl

theorem State.readReg_writeReg (s : State) (d : Reg) (v : Byte) (r : Reg) :
    (s.writeReg d v).readReg r = if r = d then v else s.readReg r :=
  RegFile.get_set s.regs d v r

/-- A register read depends on the register file alone. -/
theorem State.readReg_congr {s t : State} (h : t.regs = s.regs) (r : Reg) : t.readReg r = s.readReg r := by
  simp only [State.readReg, h]

/-! ### One memory: reads after writes -/

section Memories

variable {w : Nat} (fill : BitVec w)

theorem Memory.read_erase (m : List (Nat × BitVec w)) (a b : Nat) :
    Memory.read fill (Memory.erase m a) b = if b = a then fill else Memory.read fill m b := by
  induction m with
  | nil => simp [Memory.erase, Memory.read]
  | cons c rest ih =>
    obtain ⟨k, u⟩ := c
    simp only [Memory.erase, ne_eq, decide_not] at ih
    by_cases hk : k = a
    · subst hk
      by_cases hb : b = k
      · subst hb; simp [Memory.erase, ih]
      · simp [Memory.erase, Memory.read, ih, hb, Ne.symm hb]
    · by_cases hb : b = a
      · subst hb; simp [Memory.erase, Memory.read, hk, ih]
      · simp [Memory.erase, Memory.read, hk, ih, hb]

/-- `Memory.insert` puts its cell in front of every listed cell of the same address only if there is none;
read at another address it changes nothing. -/
theorem Memory.read_insert_other (m : List (Nat × BitVec w)) {a b : Nat} (v : BitVec w) (hb : b ≠ a) :
    Memory.read fill (Memory.insert m a v) b = Memory.read fill m b := by
  induction m with
  | nil => simp [Memory.insert, Memory.read, Ne.symm hb]
  | cons c rest ih =>
    obtain ⟨k, u⟩ := c
    simp only [Memory.insert]
    split <;> simp [Memory.read, Ne.symm hb, ih]

theorem Memory.read_insert_same (m : List (Nat × BitVec w)) (a : Nat) (v : BitVec w)
    (hm : ∀ c ∈ m, c.1 ≠ a) : Memory.read fill (Memory.insert m a v) a = v := by
  induction m with
  | nil => simp [Memory.insert, Memory.read]
  | cons c rest ih =>
    obtain ⟨k, u⟩ := c
    have hk : k ≠ a := hm (k, u) (by simp)
    simp only [Memory.insert]
    split
    · simp [Memory.read]
    · simp [Memory.read, hk, ih fun c hc => hm c (by simp [hc])]

theorem Memory.erase_ne (m : List (Nat × BitVec w)) (a : Nat) : ∀ c ∈ Memory.erase m a, c.1 ≠ a := by
  intro c hc
  simpa using (List.mem_filter.mp hc).2

/-- Everything a write does to later reads, for every list, canonical or not. -/
theorem Memory.read_write (m : List (Nat × BitVec w)) (a : Nat) (v : BitVec w) (b : Nat) :
    Memory.read fill (Memory.write fill m a v) b = if b = a then v else Memory.read fill m b := by
  unfold Memory.write
  split
  · next hv => subst hv; exact Memory.read_erase _ m a b
  · by_cases hb : b = a
    · subst hb
      simpa using Memory.read_insert_same fill _ _ v (Memory.erase_ne m _)
    · rw [Memory.read_insert_other fill _ v hb, Memory.read_erase, if_neg hb, if_neg hb]

/-! ### One memory: the canonical form is kept -/

theorem Memory.mem_insert (m : List (Nat × BitVec w)) (a : Nat) (v : BitVec w) (c : Nat × BitVec w) :
    c ∈ Memory.insert m a v ↔ c = (a, v) ∨ c ∈ m := by
  induction m with
  | nil => simp [Memory.insert]
  | cons d rest ih =>
    obtain ⟨k, u⟩ := d
    simp only [Memory.insert]
    split
    · simp
    · simp only [List.mem_cons, ih]; tauto

theorem Memory.wf_erase {size : Nat} {m : List (Nat × BitVec w)} (a : Nat) (h : Memory.wf fill size m) :
    Memory.wf fill size (Memory.erase m a) :=
  ⟨h.1.filter _, fun c hc => h.2 c (List.mem_of_mem_filter hc)⟩

theorem Memory.rising_insert (m : List (Nat × BitVec w)) (a : Nat) (v : BitVec w) (hm : ∀ c ∈ m, c.1 ≠ a)
    (h : m.Pairwise fun c d => c.1 < d.1) : (Memory.insert m a v).Pairwise fun c d => c.1 < d.1 := by
  induction m with
  | nil => simp [Memory.insert]
  | cons d rest ih =>
    obtain ⟨k, u⟩ := d
    have hk : k ≠ a := hm (k, u) (by simp)
    obtain ⟨hhead, hrest⟩ := List.pairwise_cons.mp h
    simp only [Memory.insert]
    split
    · next hlt =>
      refine List.pairwise_cons.mpr ⟨fun c hc => ?_, h⟩
      rcases List.mem_cons.mp hc with rfl | hc
      · exact hlt
      · exact Nat.lt_trans hlt (hhead c hc)
    · next hge =>
      refine List.pairwise_cons.mpr ⟨fun c hc => ?_, ih (fun c hc => hm c (by simp [hc])) hrest⟩
      rcases (Memory.mem_insert rest a v c).mp hc with rfl | hc
      · show k < a; omega
      · exact hhead c hc

/-- A write inside the memory keeps the canonical form. -/
theorem Memory.wf_write {size : Nat} {m : List (Nat × BitVec w)} {a : Nat} (v : BitVec w) (ha : a < size)
    (h : Memory.wf fill size m) : Memory.wf fill size (Memory.write fill m a v) := by
  unfold Memory.write
  have he := Memory.wf_erase fill a h
  split
  · exact he
  · next hv =>
    refine ⟨Memory.rising_insert _ a v (Memory.erase_ne m a) he.1, fun c hc => ?_⟩
    rcases (Memory.mem_insert _ a v c).mp hc with rfl | hc
    · exact ⟨ha, hv⟩
    · exact he.2 c hc

theorem Memory.wf_nil {size : Nat} : Memory.wf fill size [] := by simp [Memory.wf]

end Memories

/-! ### The machine's two memories -/

theorem DMem.read_write (fill : Byte) (m : DMem) (a v b : Byte) :
    DMem.read fill (DMem.write fill m a v) b = if b = a then v else DMem.read fill m b := by
  simp only [DMem.read, DMem.write, Memory.read_write, BitVec.toNat_inj]

theorem State.memRead_memWrite (s : State) (a v b : Byte) :
    (s.memWrite a v).memRead b = if b = a then v else s.memRead b :=
  DMem.read_write s.params.dmemFill s.dmem a v b

theorem State.memRead_congr {s t : State} (hp : t.params = s.params) (h : t.dmem = s.dmem) (a : Byte) :
    t.memRead a = s.memRead a := by
  simp only [State.memRead, hp, h]

theorem State.instrAt_setInstr (s : State) (i : Nat) (w : Word) (k : Nat) :
    (s.setInstr i w).instrAt k = if k = i then w else s.instrAt k :=
  Memory.read_write s.params.imemFill s.imem i w k

/-- A fetch depends on the parameters and the program alone. -/
theorem State.instrAt_congr {s t : State} (h : t.toSetup = s.toSetup) (i : Nat) : t.instrAt i = s.instrAt i := by
  simp only [State.instrAt, h]

/-- A store keeps the data memory canonical. -/
theorem DMem.wf_write {fill : Byte} {m : DMem} (a v : Byte) (h : Memory.wf fill 256 m) :
    Memory.wf fill 256 (DMem.write fill m a v) :=
  Memory.wf_write fill v a.isLt h

/-- Placing a word keeps the instruction memory canonical. -/
theorem State.wf_setInstr {s : State} {i : Nat} (w : Word) (hi : i < 256) (h : Memory.wf s.params.imemFill 256 s.imem) :
    Memory.wf s.params.imemFill 256 (s.setInstr i w).imem :=
  Memory.wf_write s.params.imemFill w hi h

/-- The reset memories are canonical, whatever the parameters. -/
theorem State.resetWith_dmem_wf (p : Params) : Memory.wf p.dmemFill 256 (State.resetWith p).dmem := Memory.wf_nil p.dmemFill

theorem State.resetWith_imem_wf (p : Params) : Memory.wf p.imemFill 256 (State.resetWith p).imem := Memory.wf_nil p.imemFill

/-! ### The program counter -/

theorem Pc.next_val_of_lt {p : Pc} (h : p.val < 256) : (Pc.next p).val = p.val + 1 := by
  simp [Pc.next, h]

theorem Pc.next_last : Pc.next 256 = 256 := rfl

theorem Pc.val_le (p : Pc) : p.val ≤ 256 := by omega

/-- The index either advances by one or stands at 256. -/
theorem Pc.next_cases (p : Pc) : (p.val < 256 ∧ (Pc.next p).val = p.val + 1) ∨ (p.val = 256 ∧ Pc.next p = p) := by
  by_cases h : p.val < 256
  · exact .inl ⟨h, Pc.next_val_of_lt h⟩
  · exact .inr ⟨by omega, by simp [Pc.next, h]⟩

end Sys2Proof.Machine
end

