-- ==== Sys2Proof/Laws/PerInstr.lean ====
section
/-! SUPPORT. A family of statements about every instruction as syntax: where its operands stand in its word
(30_encoding.md R51, R66), for every opcode map. -/

/-- The fields of an instruction's word: its opcode is its mnemonic's number, and its register and immediate fields
hold its operands. -/
def Sys2Proof.Laws.EncodedFields.Statement (i : Sys2Proof.Instr) : Prop :=
  ∀ m : Sys2Proof.OpcodeMap,
    match i with
    | .add rs rt rd g => Sys2Proof.fields (Sys2Proof.encodeWith m i) = ⟨m.add, rs, rt, rd, rd.toBits ++ g⟩
    | .addi rs rt imm =>
      (Sys2Proof.fields (Sys2Proof.encodeWith m i)) = ⟨m.addi, rs, rt, Sys2Proof.Reg.ofBits (imm.extractLsb' 6 2), imm⟩
    | .or rs rt rd g => Sys2Proof.fields (Sys2Proof.encodeWith m i) = ⟨m.or, rs, rt, rd, rd.toBits ++ g⟩
    | .sub rs rt rd g => Sys2Proof.fields (Sys2Proof.encodeWith m i) = ⟨m.sub, rs, rt, rd, rd.toBits ++ g⟩
    | .beq rs rt g =>
      (Sys2Proof.fields (Sys2Proof.encodeWith m i)) = ⟨m.beq, rs, rt, Sys2Proof.Reg.ofBits (g.extractLsb' 6 2), g⟩
    | .lw rs rt imm =>
      (Sys2Proof.fields (Sys2Proof.encodeWith m i)) = ⟨m.lw, rs, rt, Sys2Proof.Reg.ofBits (imm.extractLsb' 6 2), imm⟩
    | .sw rs rt imm =>
      (Sys2Proof.fields (Sys2Proof.encodeWith m i)) = ⟨m.sw, rs, rt, Sys2Proof.Reg.ofBits (imm.extractLsb' 6 2), imm⟩
    | .j _ => (Sys2Proof.fields (Sys2Proof.encodeWith m i)).opcode = m.j
    | .sentinel => Sys2Proof.encodeWith m i = 0xFFFF#16

namespace Sys2Proof.Laws.EncodedFields

/-- The top two bits of a low byte made of `rd` and the ignored bits are `rd` (R52). -/
theorem rd_of_low (rd : Reg) (g : BitVec 6) : Reg.ofBits ((rd.toBits ++ g).extractLsb' 6 2) = rd := by
  have h : (rd.toBits ++ g).extractLsb' 6 2 = rd.toBits := by
    refine BitVec.eq_of_getLsbD_eq fun i hi => ?_
    simp only [BitVec.getLsbD_extractLsb', BitVec.getLsbD_append]
    interval_cases i <;> simp
  rw [h, Reg.ofBits_toBits]

theorem add (rs rt rd : Reg) (g : BitVec 6) : Statement (.add rs rt rd g) := by
  intro m; simp [encodeWith, fields_packWord, rd_of_low]

theorem addi (rs rt : Reg) (imm : Byte) : Statement (.addi rs rt imm) := by
  intro m; simp [encodeWith, fields_packWord]

theorem or (rs rt rd : Reg) (g : BitVec 6) : Statement (.or rs rt rd g) := by
  intro m; simp [encodeWith, fields_packWord, rd_of_low]

theorem sub (rs rt rd : Reg) (g : BitVec 6) : Statement (.sub rs rt rd g) := by
  intro m; simp [encodeWith, fields_packWord, rd_of_low]

theorem beq (rs rt : Reg) (g : BitVec 8) : Statement (.beq rs rt g) := by
  intro m; simp [encodeWith, fields_packWord]

theorem lw (rs rt : Reg) (imm : Byte) : Statement (.lw rs rt imm) := by
  intro m; simp [encodeWith, fields_packWord]

theorem sw (rs rt : Reg) (imm : Byte) : Statement (.sw rs rt imm) := by
  intro m; simp [encodeWith, fields_packWord]

theorem j (g : BitVec 12) : Statement (.j g) := by
  intro m
  refine BitVec.eq_of_getLsbD_eq fun i hi => ?_
  simp only [encodeWith, fields, BitVec.getLsbD_extractLsb', BitVec.getLsbD_append]
  interval_cases i <;> simp

theorem sentinel : Statement .sentinel := fun _ => rfl

end Sys2Proof.Laws.EncodedFields
end

