-- ==== Sys2Proof/Laws/Step.lean ====
section
/-! SUPPORT. Everything a step can do, said once: the event of a state, the answer of `exec`, the cases of `step`, and the
induction over runs. -/

namespace Sys2Proof.Machine

/-- `exec` answers a next state for every instruction; what it writes is one register, one data cell or nothing, and
then it advances, or (the sentinel) it ends the run. -/
theorem exec_cases (i : Instr) (s : State) :
    (∃ d v, exec i s = .next (s.writeReg d v).advance ∧ i.destination? = some d) ∨
    (∃ rs rt imm, i = .sw rs rt imm ∧
      exec i s = .next (s.memWrite (effectiveAddress s rs imm) (s.readReg rt)).advance) ∨
    (exec i s = .next s.advance ∧ i.destination? = none) ∨
    (i = .sentinel ∧ exec i s = .next s.finish) := by
  cases i with
  | add rs rt rd g => exact .inl ⟨rd, _, rfl, rfl⟩
  | addi rs rt imm => exact .inl ⟨rt, _, rfl, rfl⟩
  | or rs rt rd g => exact .inl ⟨rd, _, rfl, rfl⟩
  | sub rs rt rd g => exact .inl ⟨rd, _, rfl, rfl⟩
  | beq rs rt g => exact .inr (.inr (.inl ⟨rfl, rfl⟩))
  | lw rs rt imm => exact .inl ⟨rt, _, rfl, rfl⟩
  | sw rs rt imm => exact .inr (.inl ⟨rs, rt, imm, rfl, rfl⟩)
  | j g => exact .inr (.inr (.inl ⟨rfl, rfl⟩))
  | sentinel => exact .inr (.inr (.inr ⟨rfl, rfl⟩))

/-- No instruction changes the parameters or the instruction memory. -/
theorem exec_toSetup {i : Instr} {s t : State} (h : exec i s = .next t) : t.toSetup = s.toSetup := by
  rcases exec_cases i s with ⟨d, v, h', -⟩ | ⟨rs, rt, imm, -, h'⟩ | ⟨h', -⟩ | ⟨-, h'⟩ <;>
    (rw [h'] at h; cases h; rfl)

/-- The events, each with what the state must be for it. -/
theorem State.event_cases (s : State) :
    (s.event = .launch ∧ s.status = .load) ∨
    (s.event = .overrun ∧ s.status = .running ∧ s.pc.val = 256) ∨
    (∃ i, s.event = .instr i ∧ s.status = .running ∧ s.pc.val < 256 ∧ decodeWith s.params.opcodeMap (s.instrAt s.pc.val) = .ok i) ∨
    (s.event = .undefined ∧ s.status = .running ∧ s.pc.val < 256 ∧
      ∃ e, decodeWith s.params.opcodeMap (s.instrAt s.pc.val) = .error e) ∨
    (s.event = .over ∧ s.status.terminal = true) := by
  have hpc := Pc.val_le s.pc
  unfold State.event
  split
  · next h => exact .inl ⟨rfl, h⟩
  · next h =>
    split
    · next h256 => exact .inr (.inl ⟨rfl, h, h256⟩)
    · next h256 =>
      have hlt : s.pc.val < 256 := by omega
      split
      · next i hi => exact .inr (.inr (.inl ⟨i, rfl, h, hlt, hi⟩))
      · next e he => exact .inr (.inr (.inr (.inl ⟨rfl, h, hlt, e, he⟩)))
  all_goals next h => exact .inr (.inr (.inr (.inr ⟨rfl, by rw [h]; rfl⟩)))

/-- What any event answers leaves the parameters and the instruction memory as they were. -/
theorem respond_toSetup {s t : State} {e : Event} (h : respond s e = .next t) : t.toSetup = s.toSetup := by
  cases e
  case instr i => exact exec_toSetup h
  all_goals cases h
  all_goals rfl

/-- `step` answers the event of the state, on the state itself. -/
theorem step_eq (s : State) : step s = respond s s.event := by
  show underSetup s.toSetup (keepRunState (respond s s.event)) = respond s s.event
  cases h : respond s s.event with
  | next t => simp only [keepRunState, underSetup, ← respond_toSetup h]
  | fault r => rfl
  | refused r => rfl

/-- No step changes the parameters or the instruction memory. -/
theorem step_toSetup {s t : State} (h : step s = .next t) : t.toSetup = s.toSetup :=
  respond_toSetup ((step_eq s).symm.trans h)

/-- Everything `step` can answer. -/
theorem step_cases (s : State) :
    (s.status = .load ∧ step s = .next s.launch) ∨
    (s.status = .running ∧ s.pc.val = 256 ∧ step s = .next s.programOverrun) ∨
    (∃ i, s.status = .running ∧ s.pc.val < 256 ∧ decodeWith s.params.opcodeMap (s.instrAt s.pc.val) = .ok i ∧ step s = exec i s) ∨
    (∃ e, s.status = .running ∧ s.pc.val < 256 ∧ decodeWith s.params.opcodeMap (s.instrAt s.pc.val) = .error e ∧
      step s = .next s.undefinedOpcode) ∨
    (s.status.terminal = true ∧ step s = .fault (.runOver s.status)) := by
  rcases s.event_cases with ⟨h, hs⟩ | ⟨h, hs, hp⟩ | ⟨i, h, hs, hp, hi⟩ | ⟨h, hs, hp, e, he⟩ | ⟨h, hs⟩
  · exact .inl ⟨hs, by rw [step_eq, h]; rfl⟩
  · exact .inr (.inl ⟨hs, hp, by rw [step_eq, h]; rfl⟩)
  · exact .inr (.inr (.inl ⟨i, hs, hp, hi, by rw [step_eq, h]; rfl⟩))
  · exact .inr (.inr (.inr (.inl ⟨e, hs, hp, he, by rw [step_eq, h]; rfl⟩)))
  · exact .inr (.inr (.inr (.inr ⟨hs, by rw [step_eq, h]; rfl⟩)))

/-- `k + 1` steps of the machine that end in a next state begin with one step that does. -/
theorem run_succ {k : Nat} {s t : State} (h : Host.Core.run core (k + 1) s = .next t) :
    ∃ u, step s = .next u ∧ Host.Core.run core k u = .next t := by
  simp only [Host.Core.run] at h
  split at h
  · next u hu => exact ⟨u, hu, h⟩
  · cases h
  · cases h

/-- The induction over runs, once: what every step keeps, every run keeps. -/
theorem run_induction {P : State → Prop} (hstep : ∀ s t, P s → step s = .next t → P t) :
    ∀ (k : Nat) (s t : State), P s → Host.Core.run core k s = .next t → P t := by
  intro k
  induction k with
  | zero => intro s t hs h; cases h; exact hs
  | succ k ih =>
    intro s t hs h
    obtain ⟨u, hu, h'⟩ := run_succ h
    exact ih u t (hstep s u hs hu) h'

end Sys2Proof.Machine
end

