-- ==== Sys2Proof/Tests/Slice0.lean ====
section
/-! SUPPORT. The model's own tests: the well-formedness smoke, words written out from the spec's encodings, at most two single
steps per instruction with the end states of 95_test_vectors.md, and for each statement with hypotheses a witness that meets them. -/

namespace Sys2Proof.Tests

open Sys2Proof Sys2Proof.Machine

/-! ### Small states and what is checked of a step -/

/-- A RUNNING state of the machine with the default parameters at an index, with four register values, some data cells and one
instruction word there. -/
def at_ (p : Pc) (a b c d : Byte) (m : DMem) (w : Word) : State :=
  { regs := ⟨a, b, c, d⟩, pc := p, status := .running, dmem := m, params := defaultParams,
    imem := if w = defaultParams.imemFill then [] else [(p.val, w)] }

/-- Registers, index and status after one step, and one data cell. -/
def after (s : State) (cell : Byte) : Option (List Byte × Nat × Status × Byte) :=
  match step s with
  | .next t => some (t.snapshot, t.pc.val, t.status, t.memRead cell)
  | .fault _ => none
  | .refused _ => none

/-- A map that assigns 0xF to J, so that R60's case arises. -/
def jIsF : OpcodeMap := { defaultOpcodeMap with j := 0xF#4 }

/-- Parameters that differ from the defaults in every field: LW and ADD change numbers, the fills and REG_INIT are not 0 and not the
sentinel (R5). -/
def otherParams : Params where
  opcodeMap := { defaultOpcodeMap with add := 0x5#4, lw := 0x0#4 }
  regInit := ⟨7#8, 8#8, 9#8, 10#8⟩
  dmemFill := 0x5A#8
  imemFill := 0x0000#16

/-! ### Well-formedness: a term each check refuses -/

theorem test_map_using_eight_refused : OpcodeMap.valid { defaultOpcodeMap with j := 0x8#4 } = false := by decide
theorem test_map_not_injective_refused : OpcodeMap.valid { defaultOpcodeMap with sub := 0x0#4 } = false := by decide
theorem test_map_with_f_accepted : jIsF.valid = true := by decide
theorem test_sentinel_word_is_no_jump : (Instr.j 0xFFF#12).wellFormed jIsF = false := by decide
theorem test_sentinel_word_is_no_load :
    (Instr.lw .r3 .r3 0xFF#8).wellFormed { defaultOpcodeMap with lw := 0xF#4 } = false := by decide
theorem test_all_ones_add_well_formed : (Instr.add .r3 .r3 .r3 0x3F#6).wellFormed defaultOpcodeMap = true := by decide

/-! ### Decoding: one word per constructor, written out bit by bit from 30_encoding.md R57 -/

theorem test_decode_add : decode 0b0000000110000000#16 = .ok (.add .r0 .r1 .r2 0#6) := by decide
theorem test_decode_addi : decode 0b0001011011001000#16 = .ok (.addi .r1 .r2 0xC8#8) := by decide
theorem test_decode_or : decode 0b0010111011000000#16 = .ok (.or .r3 .r2 .r3 0#6) := by decide
theorem test_decode_sub : decode 0b0011010000000000#16 = .ok (.sub .r1 .r0 .r0 0#6) := by decide
theorem test_decode_beq : decode 0b0100011001111111#16 = .ok (.beq .r1 .r2 0x7F#8) := by decide
theorem test_decode_lw : decode 0b0101101111110000#16 = .ok (.lw .r2 .r3 0xF0#8) := by decide
theorem test_decode_sw : decode 0b0110000100011110#16 = .ok (.sw .r0 .r1 30#8) := by decide
theorem test_decode_j : decode 0b0111111111111111#16 = .ok (.j 0xFFF#12) := by decide
theorem test_decode_sentinel : decode 0b1111111111111111#16 = .ok .sentinel := by decide
theorem test_decode_undefined : decode 0b1001101010111100#16 = .error (.undefinedOpcode 9#4) := by decide

/-- R66's two worked encodings. -/
theorem test_encode_r66 :
    encode (.add .r0 .r1 .r2 0#6) = 0x0180#16 ∧ encode (.sw .r0 .r1 30#8) = 0x611E#16 := by decide

theorem test_table_word : decodeTableWord 16 0x5504 = some (.lw .r1 .r1 4#8) := by decide
theorem test_table_word_undefined : decodeTableWord 16 0xF000 = none := by decide

/-- V3: the decoder block extracts fields from the sentinel too (R70). -/
theorem test_fields_of_sentinel : fields 0xFFFF#16 = ⟨0xF#4, .r3, .r3, .r3, 0xFF#8⟩ := by decide

/-! ### ALU and Control Unit vectors (V12, V13, V19, V23b, V23d, V8) -/

theorem test_alu_vectors :
    alu .add 255#8 1#8 = ⟨0#8, true, true⟩ ∧ alu .add 200#8 100#8 = ⟨44#8, false, true⟩ ∧
    alu .sub 3#8 5#8 = ⟨254#8, false, true⟩ ∧ alu .sub 128#8 1#8 = ⟨127#8, false, false⟩ ∧
    alu .or 0xF0#8 0x0F#8 = ⟨0xFF#8, false, false⟩ := by decide

theorem test_control_undefined : controlUnit defaultOpcodeMap 0x8#4 = none ∧ controlUnit defaultOpcodeMap 0xF#4 = none := by
  decide

/-! ### One step per instruction (95_test_vectors.md, the id in the comment) -/

-- V24a: all three fields the same register, the sum wraps.
theorem test_add_wraps : after (at_ 0 0 0x90 0 0 [] 0x0540#16) 0 = some ([0, 0x20, 0, 0], 1, .running, 0) := by decide
-- V24b: bits 5:0 ignored.
theorem test_add_ignored_bits : after (at_ 0 5 3 0 0 [] 0x01BF#16) 0 = some ([5, 3, 8, 0], 1, .running, 0) := by decide
-- V25, V25a: underflow wraps; source minus target.
theorem test_sub_wraps : after (at_ 0 3 5 0 0 [] 0x3100#16) 0 = some ([254, 5, 0, 0], 1, .running, 0) := by decide
theorem test_sub_order : after (at_ 0 3 5 0 0 [] 0x3400#16) 0 = some ([2, 5, 0, 0], 1, .running, 0) := by decide
-- V26.
theorem test_or : after (at_ 0 0 0 0x0F 0xF0 [] 0x2EC0#16) 0 = some ([0, 0, 0x0F, 0xFF], 1, .running, 0) := by decide
-- V27a: the immediate's top bits are no register; V27c: adding 255 subtracts 1.
theorem test_addi_aliasing : after (at_ 0 9 10 11 12 [] 0x16C8#16) 0 = some ([9, 10, 210, 12], 1, .running, 0) := by decide
theorem test_addi_wraps : after (at_ 255 0 5 0 0 [] 0x15FF#16) 0 = some ([0, 4, 0, 0], 256, .running, 0) := by decide
-- V28: base and destination the same register; V29: the address wraps.
theorem test_lw_same_register :
    after (at_ 0 0 6 0 0 [(10, 0x77)] 0x5504#16) 10 = some ([0, 0x77, 0, 0], 1, .running, 0x77) := by decide
theorem test_lw_wraps :
    after (at_ 0 0 0 0x20 0 [(0x10, 0x5A)] 0x5BF0#16) 0x10 = some ([0, 0, 0x20, 0x5A], 1, .running, 0x5A) := by decide
-- S4: the register is stored, not the immediate; V31: the address wraps.
theorem test_sw_register : after (at_ 0 0 4 0 0 [] 0x611E#16) 30 = some ([0, 4, 0, 0], 1, .running, 4) := by decide
theorem test_sw_wraps : after (at_ 0 0xAB 2 0 0 [] 0x64FF#16) 1 = some ([0xAB, 2, 0, 0], 1, .running, 0xAB) := by decide
-- V32: equal operands still fall through; V34: J with all ignored bits set.
theorem test_beq_inert : after (at_ 0 1 9 9 4 [] 0x467F#16) 0 = some ([1, 9, 9, 4], 1, .running, 0) := by decide
theorem test_j_inert : after (at_ 0 1 2 3 4 [] 0x7FFF#16) 0 = some ([1, 2, 3, 4], 1, .running, 0) := by decide
-- V40: the sentinel; V41, V42: words next to it are undefined opcodes; R173: overrun at 256.
theorem test_sentinel : after (at_ 0 0 0 0 0 [] 0xFFFF#16) 0 = some ([0, 0, 0, 0], 0, .done, 0) := by decide
theorem test_undefined_f000 :
    after (at_ 0 1 2 3 4 [] 0xF000#16) 0 = some ([1, 2, 3, 4], 0, .errUndefinedOpcode, 0) := by decide
theorem test_undefined_fffe :
    after (at_ 0 1 2 3 4 [] 0xFFFE#16) 0 = some ([1, 2, 3, 4], 0, .errUndefinedOpcode, 0) := by decide
theorem test_overrun : after (at_ 256 1 2 3 4 [] 0xFFFF#16) 0 = some ([1, 2, 3, 4], 256, .errProgramOverrun, 0) := by
  decide
-- R172's alternative: skip goes on at the next index.
theorem test_skip_policy : ((at_ 5 0 3 0 0 [] 0x9ABC#16).undefinedOpcodeWith .skip).pc.val = 6 := by decide
-- A word placed at reset is what the next step runs.
theorem test_placed_word :
    after (State.reset.withFetchWord 16 0x1107) 0 = some ([0, 7, 0, 0], 1, .running, 0) := by decide

-- R5, R25: a machine with other parameters. Its word 0x0123 is `LW r1, 0x23(r0)`, an unwritten cell reads DMEM_FILL, and an unloaded
-- word is IMEM_FILL, here `LW r0, 0(r0)`.
theorem test_other_params_lw :
    after ((State.resetWith otherParams).withFetchWord 16 0x0123) 0 = some ([7, 0x5A, 9, 10], 1, .running, 0x5A) := by decide
theorem test_other_params_fill :
    after { State.resetWith otherParams with status := .running } 0 = some ([0x5A, 8, 9, 10], 1, .running, 0x5A) := by decide
-- R124 (notes/assumptions/15.md): the step in LOAD is the launch.
theorem test_launch : after State.reset 0 = some ([0, 0, 0, 0], 0, .running, 0) := by decide
-- R190: rst brings back the machine's own REG_INIT.
theorem test_rst_restores_reg_init :
    (match clockEdge ⟨true, false, none, none⟩ { State.resetWith otherParams with status := .done, regs := ⟨1, 1, 1, 1⟩ } with
      | .next t => t.snapshot | .fault _ => [] | .refused _ => []) = [7, 8, 9, 10] := by decide

/-! ### The arbiter and the write-back mux on bundles outside the table (V46 to V50) -/

/-- The fields and data of 95_test_vectors.md section 2.9. -/
def blockFields : Fields := ⟨0#4, .r0, .r1, .r2, 0#8⟩
def blockData : Data := ⟨⟨1, 2, 3, 4⟩, [(3, 0x99)]⟩

theorem test_block_read_wins :
    datapath 0#8 ⟨.add, false, false, false, true, true, true, false, false⟩ blockFields blockData =
      ⟨⟨1, 0x99, 3, 4⟩, [(3, 0x99)]⟩ := by decide
theorem test_block_store_suppresses_write_back :
    datapath 0#8 ⟨.add, false, false, false, true, false, true, false, false⟩ blockFields blockData =
      ⟨⟨1, 2, 3, 4⟩, [(3, 2)]⟩ := by decide
theorem test_block_read_dropped :
    datapath 0#8 ⟨.add, false, false, false, false, true, false, false, false⟩ blockFields blockData = blockData := by decide
theorem test_block_mem_to_reg_is_a_destination :
    datapath 0#8 ⟨.add, true, false, true, true, false, false, false, false⟩ blockFields blockData =
      ⟨⟨1, 3, 3, 4⟩, [(3, 0x99)]⟩ := by decide
theorem test_block_data_follows_mem_read :
    datapath 0#8 ⟨.add, true, false, false, true, true, false, false, false⟩ blockFields blockData =
      ⟨⟨1, 2, 0x99, 4⟩, [(3, 0x99)]⟩ := by decide

/-! ### Memory: a write of the fill value removes the cell; ports and host calls -/

theorem test_memory_canonical :
    DMem.write 0 (DMem.write 0 (DMem.write 0 [] 9 1) 4 2) 9 0 = [(4, 2)] ∧
    DMem.write 0x5A (DMem.write 0x5A [] 9 0) 9 0x5A = [] := by decide
theorem test_host_calls :
    (match hostCall (.loadInstruction 0 0x1105) State.reset with
      | .next t => t.imem | .fault _ => [] | .refused _ => []) = [(0, 0x1105#16)] ∧
    (match hostCall (.loadData 16 42) State.reset with
      | .next t => t.dmem | .fault _ => [] | .refused _ => []) = [(16, 42)] := by decide
theorem test_ports_of_reset : State.reset.portsOut = ⟨0, 0, [0, 0, 0, 0], none⟩ := by decide
theorem test_observe_reset : State.reset.observe = ⟨[0, 0, 0, 0], [], .load, 0⟩ := by decide

/-! ### Witnesses: for each statement with hypotheses, values that meet all of them together -/

/-- ADD at index 0 and at the last index, a store, the sentinel, an undefined word, the end of memory, and a finished run. -/
def sAdd : State := at_ 0 5 3 0 0 [] 0x0180#16
def sLast : State := at_ 255 5 3 0 0 [] 0x0180#16
def sSw : State := at_ 0 0 4 0 0 [] 0x611E#16
def sEnd : State := at_ 0 0 0 0 0 [] 0xFFFF#16
def sUndef : State := at_ 0 1 2 3 4 [] 0x8000#16
def sOver : State := at_ 256 1 2 3 4 [] 0xFFFF#16
def sErr : State := { sUndef with status := .errUndefinedOpcode }

theorem test_witness_decodeOfEncode :
    jIsF.valid = true ∧ (Instr.j 0xFFE#12).wellFormed jIsF = true ∧
    defaultOpcodeMap.valid = true ∧ (Instr.add .r3 .r3 .r3 0x3F#6).wellFormed defaultOpcodeMap = true := by decide

theorem test_witness_encodeOfDecode : decodeWith jIsF 0xFFFE#16 = .ok (.j 0xFFE#12) := by decide

theorem test_witness_classified :
    (0x0180#16 ≠ 0xFFFF#16 ∧ (defaultOpcodeMap.number .add).toNat = (0x0180#16).toNat / 4096) ∧
    (0x8000#16 ≠ 0xFFFF#16 ∧ ∀ k, (defaultOpcodeMap.number k).toNat ≠ (0x8000#16).toNat / 4096) ∧
    (0xFFFE#16 ≠ 0xFFFF#16 ∧ (jIsF.number .j).toNat = (0xFFFE#16).toNat / 4096) := by
  refine ⟨by decide, ⟨by decide, fun k => by cases k <;> decide⟩, by decide⟩

theorem test_witness_ignoredBits :
    (0x0180#16).toNat / 2 ^ ignoredLowBits .add = (0x01BF#16).toNat / 2 ^ ignoredLowBits .add ∧
    (0x7000#16).toNat / 2 ^ ignoredLowBits .j = (0x7FFF#16).toNat / 2 ^ ignoredLowBits .j ∧
    (defaultOpcodeMap.number .add).toNat = (0x0180#16).toNat / 4096 ∧
    (defaultOpcodeMap.number .j).toNat = (0x7000#16).toNat / 4096 ∧
    0x0180#16 ≠ 0xFFFF#16 ∧ 0x01BF#16 ≠ 0xFFFF#16 ∧ 0x7000#16 ≠ 0xFFFF#16 ∧ 0x7FFF#16 ≠ 0xFFFF#16 := by decide

theorem test_witness_control :
    (∀ k, defaultOpcodeMap.number k ≠ 0x8#4) ∧
    controlUnit defaultOpcodeMap 0x5#4 = some (controlRow .lw) := by
  exact ⟨fun k => by cases k <;> decide, by decide⟩

theorem test_witness_arbiter :
    (controlRow .lw).memRead = true ∧ ((controlRow .sw).memRead = false ∧ (controlRow .sw).memWrite = true) ∧
    ((controlRow .add).memRead = false ∧ (controlRow .add).memWrite = false) := by decide

theorem test_witness_writeBack :
    ((controlRow .lw).memRead = true ∨ (controlRow .lw).memWrite = false) ∧
    ((controlRow .j).memRead = true ∨ (controlRow .j).memWrite = false) := by decide

theorem test_witness_engine :
    sAdd.params.opcodeMap.valid = true ∧ (State.resetWith otherParams).params.opcodeMap.valid = true ∧
    decodeWith defaultOpcodeMap 0x7FFF#16 = .ok (.j 0xFFF#12) ∧
    decodeWith defaultOpcodeMap 0x8000#16 = .error (.undefinedOpcode 8#4) ∧
    0x7FFF#16 ≠ 0xFFFF#16 ∧ 0x8000#16 ≠ 0xFFFF#16 := by decide

theorem test_witness_execute :
    sLast.params = sAdd.params ∧ sLast.data = sAdd.data ∧ sLast ≠ sAdd ∧
    (match execute defaultParams 0x8000#16 sAdd.data with
      | .ok _ => none | .error e => some e) = some .undefinedOpcode ∧
    sAdd.status = .running ∧ sAdd.pc.val < 256 ∧ sAdd.instrAt sAdd.pc.val ≠ 0xFFFF#16 := by decide

theorem test_witness_undefinedOpcode :
    sUndef.status = .running ∧ sUndef.pc.val < 256 ∧ sUndef.instrAt sUndef.pc.val ≠ 0xFFFF#16 ∧
    controlUnit sUndef.params.opcodeMap (fields (sUndef.instrAt sUndef.pc.val)).opcode = none := by decide

/-- The nine instruction statements ask for an index below 256, and their encodings for a word other than the sentinel. -/
theorem test_witness_instructions :
    sAdd.pc.val < 256 ∧ sLast.pc.val < 256 ∧
    encode (.add .r3 .r3 .r3 0x3F#6) ≠ 0xFFFF#16 ∧ encode (.or .r3 .r3 .r3 0x3F#6) ≠ 0xFFFF#16 ∧
    encode (.sub .r3 .r3 .r3 0x3F#6) ≠ 0xFFFF#16 ∧ encode (.addi .r3 .r3 0xFF#8) ≠ 0xFFFF#16 ∧
    encode (.lw .r3 .r3 0xFF#8) ≠ 0xFFFF#16 ∧ encode (.sw .r3 .r3 0xFF#8) ≠ 0xFFFF#16 ∧
    encode (.beq .r3 .r3 0xFF#8) ≠ 0xFFFF#16 ∧ encode (.j 0xFFF#12) ≠ 0xFFFF#16 := by decide

theorem test_witness_sentinel :
    sEnd.status = .running ∧ sEnd.pc.val < 256 ∧ sEnd.instrAt sEnd.pc.val = 0xFFFF#16 := by decide

theorem test_witness_oneRegister :
    (∃ t, exec (.add .r0 .r1 .r2 0#6) sAdd = .next t) ∧ (∃ t, exec (.sw .r0 .r1 30#8) sAdd = .next t) ∧
    (controlRow .beq).regWrite = false ∧ ((controlRow .sw).memRead = false ∧ (controlRow .sw).memWrite = true) ∧
    (HostCall.loadData 16 42 ≠ .run ∧ ∃ t, hostCall (.loadData 16 42) State.reset = .next t) := by
  exact ⟨⟨_, rfl⟩, ⟨_, rfl⟩, by decide, by decide, by decide, _, rfl⟩

theorem test_witness_accesses :
    (sAdd.status = .running ∧ Memory.read sAdd.params.imemFill [(0, 0x0180#16), (7, 0x7000#16)] sAdd.pc.val = sAdd.instrAt sAdd.pc.val ∧
      ∃ t, step sAdd = .next t) ∧
    ((∀ rs rt imm, Instr.j 0#12 ≠ .lw rs rt imm ∧ Instr.j 0#12 ≠ .sw rs rt imm) ∧
      ∃ t, exec (.j 0#12) sAdd = .next t) ∧
    ((∃ t, exec (.lw .r0 .r1 20#8) sAdd = .next t) ∧
      DMem.read sAdd.params.dmemFill [(1, 7)] (effectiveAddress sAdd .r0 20#8) = sAdd.memRead (effectiveAddress sAdd .r0 20#8)) ∧
    ∃ t, exec (.sw .r0 .r1 30#8) sAdd = .next t :=
  ⟨⟨by decide, by decide, _, rfl⟩, ⟨fun _ _ _ => ⟨by simp, by simp⟩, _, rfl⟩, ⟨⟨_, rfl⟩, by decide⟩, _, rfl⟩

theorem test_witness_wrap : (at_ 0 0xF0 0 0 0 [] 0#16).readReg .r0 = 0xF0#8 := by decide

theorem test_witness_storeThenLoad :
    ∃ t, exec (.sw .r0 .r1 30#8) sSw = .next t ∧ effectiveAddress t .r0 30#8 = effectiveAddress sSw .r0 30#8 :=
  ⟨_, rfl, by decide⟩

theorem test_witness_fetch :
    (∃ t, exec (.sw .r0 .r1 30#8) sSw = .next t) ∧ ∃ t, Host.Core.run core 1 sSw = .next t := ⟨⟨_, rfl⟩, _, rfl⟩

theorem test_witness_setup :
    (∃ t, exec (.add .r0 .r1 .r2 0#6) sAdd = .next t) ∧ (∃ t, Host.Core.run core 1 sSw = .next t) ∧
    ((∀ index word, HostCall.loadData 16 42 ≠ .loadInstruction index word) ∧
      ∃ t, hostCall (.loadData 16 42) State.reset = .next t) ∧
    ∃ t, clockEdge ⟨false, true, none, none⟩ State.reset = .next t :=
  ⟨⟨_, rfl⟩, ⟨_, rfl⟩, ⟨fun _ _ => by simp, _, rfl⟩, _, rfl⟩

theorem test_witness_placed :
    (State.resetWith otherParams).params.opcodeMap.valid = true ∧
    (Instr.lw .r3 .r3 0xFF#8).wellFormed (State.resetWith otherParams).params.opcodeMap = true ∧
    sAdd.params.opcodeMap.valid = true ∧ Instr.sentinel.wellFormed sAdd.params.opcodeMap = true := by decide

theorem test_witness_stepRuns :
    sAdd.status = .running ∧ sAdd.pc.val < 256 ∧ decodeWith sAdd.params.opcodeMap (sAdd.instrAt sAdd.pc.val) = .ok (.add .r0 .r1 .r2 0#6) := by decide

theorem test_witness_stepEvents :
    (sOver.status = .running ∧ sOver.pc.val = 256) ∧
    (sEnd.status = .running ∧ sEnd.pc.val < 256 ∧ sEnd.instrAt sEnd.pc.val = 0xFFFF#16) ∧
    (sUndef.status = .running ∧ sUndef.pc.val < 256 ∧ sUndef.instrAt sUndef.pc.val ≠ 0xFFFF#16 ∧
      controlUnit sUndef.params.opcodeMap (fields (sUndef.instrAt sUndef.pc.val)).opcode = none) ∧
    (sLast.status = .running ∧ sLast.pc.val < 256 ∧ sLast.instrAt sLast.pc.val ≠ 0xFFFF#16 ∧
      controlUnit sLast.params.opcodeMap (fields (sLast.instrAt sLast.pc.val)).opcode ≠ none) := by decide

theorem test_witness_run :
    sOver.status = .running ∧ sErr.Terminal ∧ sAdd.status ≠ .load ∧
    (∃ t, step sAdd = .next t) ∧ (∃ t, Host.Core.run core 1 sAdd = .next t) ∧ State.reset.status = .load :=
  ⟨by decide, by decide, by decide, ⟨_, rfl⟩, ⟨_, rfl⟩, by decide⟩

theorem test_witness_errors :
    (sUndef.status = .running ∧ sUndef.pc.val < 256 ∧ ∃ e, decodeWith sUndef.params.opcodeMap (sUndef.instrAt sUndef.pc.val) = .error e) ∧
    (sOver.status = .running ∧ sOver.pc.val = 256) ∧
    (sErr.status = .errUndefinedOpcode ∨ sErr.status = .errProgramOverrun) ∧
    (∃ t, hostCall .snapshotRegisters sErr = .next t) :=
  ⟨⟨by decide, by decide, _, rfl⟩, by decide, by decide, _, rfl⟩

theorem test_witness_host :
    (255 < 256 ∧ 65535 < 65536 ∧ State.reset.status = .load ∧ sAdd.status ≠ .load) ∧
    (HostCall.run ≠ .snapshotRegisters ∧ sAdd.status = .running ∧ State.reset.status ≠ .running) ∧
    (256 ≤ 256 ∨ 65536 ≤ 0) ∧ (256 ≤ 0 ∨ 256 ≤ 256) := by decide

theorem test_witness_clock :
    (PortsIn.mk true false none none).rst = true ∧
    ((PortsIn.mk false true (some (255, 0x7000)) (some (255, 1))).rst = false ∧
      (PortsIn.mk false true (some (255, 0x7000)) (some (255, 1))).start = true ∧ State.reset.status = .load) ∧
    ((PortsIn.mk false false none none).start = false ∧ sAdd.status = .running ∧ sErr.Terminal) := by decide

theorem test_witness_signals :
    ((at_ 0 1 9 9 4 [] 0x467F#16).status = .running ∧ (at_ 0 1 9 9 4 [] 0x467F#16).pc.val < 256 ∧
      decodeWith (at_ 0 1 9 9 4 [] 0x467F#16).params.opcodeMap ((at_ 0 1 9 9 4 [] 0x467F#16).instrAt 0) = .ok (.beq .r1 .r2 0x7F#8)) ∧
    ((at_ 255 1 9 9 4 [] 0x7000#16).status = .running ∧ (at_ 255 1 9 9 4 [] 0x7000#16).pc.val < 256 ∧
      decodeWith (at_ 255 1 9 9 4 [] 0x7000#16).params.opcodeMap ((at_ 255 1 9 9 4 [] 0x7000#16).instrAt 255) = .ok (.j 0#12)) := by decide

theorem test_witness_invariant :
    sSw.Inv ∧ (∃ t, step sSw = .next t) ∧ otherParams.opcodeMap.valid = true ∧
    ({ State.reset with dmem := [(16, 42)], imem := [(0, 0x5110)] } : State).Inv ∧
    (∃ t, hostCall (.loadData 16 42) State.reset = .next t) ∧
    ∃ t, clockEdge ⟨false, false, none, some (255, 1)⟩ State.reset = .next t :=
  ⟨⟨by decide, by decide, by decide, trivial⟩, ⟨_, rfl⟩, by decide, ⟨by decide, by decide, by decide, rfl⟩, ⟨_, rfl⟩, _, rfl⟩

theorem test_witness_canonical :
    Memory.wf (0#8) 256 [(4, 2#8), (255, 1#8)] := by decide

end Sys2Proof.Tests
end

/-! PROOFS. Family 10_state.md: who writes a register (R13). -/

namespace Sys2Proof.Machine

/-! ### One instruction -/

/-- No instruction changes a register that it does not name as its destination. -/
theorem exec_readReg_of_ne_destination {i : Instr} {s t : State} {r : Reg} (h : exec i s = .next t)
    (hr : i.destination? ≠ some r) : t.readReg r = s.readReg r := by
  rcases exec_cases i s with ⟨d, v, hexec, hd⟩ | ⟨rs, rt, imm, -, hexec⟩ | ⟨hexec, -⟩ | ⟨-, hexec⟩ <;>
    obtain rfl := Host.Outcome.next.inj (hexec.symm.trans h)
  · have hne : r ≠ d := by rintro rfl; exact hr hd
    rw [State.readReg_advance, State.readReg_writeReg, if_neg hne]
  · rw [State.readReg_advance, State.readReg_memWrite]
  · rw [State.readReg_advance]
  · rw [State.readReg_finish]

theorem exec_readReg_of_destination_eq_some {i : Instr} {s t : State} {d : Reg} (h : exec i s = .next t)
    (hd : i.destination? = some d) (r : Reg) (hr : r ≠ d) : t.readReg r = s.readReg r :=
  exec_readReg_of_ne_destination h fun hsome => hr (Option.some.inj (hsome.symm.trans hd))

theorem exec_sameRegs_of_destination_eq_none {i : Instr} {s t : State} (h : exec i s = .next t)
    (hd : i.destination? = none) : SameRegs s t := fun r =>
  exec_readReg_of_ne_destination h (by simp [hd])

/-! ### The engine's write-back, for any bundle -/

/-- The store path of the arbiter hands nothing to write-back (R107). -/
theorem memoryStage_fst_of_store {c : ControlBundle} (hread : c.memRead = false) (hwrite : c.memWrite = true)
    (fill r v : Byte) (m : DMem) : (memoryStage fill c r v m).1 = none := by
  simp [memoryStage, hread, hwrite]

@[simp] theorem writeBackStage_none (c : ControlBundle) (f : Fields) (g : RegFile) :
    writeBackStage c f none g = g := rfl

theorem writeBackStage_of_regWrite_eq_false {c : ControlBundle} (h : c.regWrite = false) (f : Fields)
    (v : Option Byte) (g : RegFile) : writeBackStage c f v g = g := by
  cases v with
  | none => rfl
  | some b => simp [writeBackStage, h]

theorem datapath_regs (fill : Byte) (c : ControlBundle) (f : Fields) (d : Data) :
    (datapath fill c f d).regs =
      writeBackStage c f (memoryStage fill c (aluStage c f d).result (d.regs.get f.rt) d.dmem).1 d.regs := rfl

theorem datapath_regs_of_regWrite_eq_false {c : ControlBundle} (h : c.regWrite = false) (fill : Byte) (f : Fields)
    (d : Data) : (datapath fill c f d).regs = d.regs := by
  rw [datapath_regs, writeBackStage_of_regWrite_eq_false h]

theorem datapath_regs_of_store {c : ControlBundle} (hread : c.memRead = false) (hwrite : c.memWrite = true)
    (fill : Byte) (f : Fields) (d : Data) : (datapath fill c f d).regs = d.regs := by
  rw [datapath_regs, memoryStage_fst_of_store hread hwrite, writeBackStage_none]

/-! ### The host's calls -/

/-- Everything an allowed host call does, with the conditions under which it is allowed (R121 to R125). -/
theorem hostCall_cases {c : HostCall} {s t : State} (h : hostCall c s = .next t) :
    (∃ index word, c = .loadInstruction index word ∧ s.status = .load ∧ index < 256 ∧ word < 65536 ∧
      t = s.setInstr index (BitVec.ofNat 16 word)) ∨
    (∃ address value, c = .loadData address value ∧ s.status = .load ∧ address < 256 ∧ value < 256 ∧
      t = s.memWrite (BitVec.ofNat 8 address) (BitVec.ofNat 8 value)) ∨
    (c = .run ∧ s.status = .load ∧ t = s.runCall) ∨
    (c = .snapshotRegisters ∧ s.status ≠ .running ∧ t = s) := by
  cases c with
  | loadInstruction index word =>
    simp only [hostCall] at h
    split at h
    · next hload =>
      split at h
      · next hrange =>
        cases h
        exact .inl ⟨index, word, rfl, hload, hrange.1, hrange.2, rfl⟩
      · cases h
    · cases h
  | loadData address value =>
    simp only [hostCall] at h
    split at h
    · next hload =>
      split at h
      · next hrange =>
        cases h
        exact .inr (.inl ⟨address, value, rfl, hload, hrange.1, hrange.2, rfl⟩)
      · cases h
    · cases h
  | run =>
    simp only [hostCall] at h
    split at h
    · next hload => cases h; exact .inr (.inr (.inl ⟨rfl, hload, rfl⟩))
    · cases h
  | snapshotRegisters =>
    simp only [hostCall] at h
    split at h
    · cases h
    · next hrunning => cases h; exact .inr (.inr (.inr ⟨rfl, hrunning, rfl⟩))

/-- `run()` aside, no host call writes a register. -/
theorem hostCall_sameRegs {c : HostCall} {s t : State} (hc : c ≠ .run) (h : hostCall c s = .next t) :
    SameRegs s t := by
  intro r
  rcases hostCall_cases h with ⟨index, word, -, -, -, -, rfl⟩ | ⟨address, value, -, -, -, -, rfl⟩ |
    ⟨hrun, -, -⟩ | ⟨-, -, rfl⟩
  · exact State.readReg_setInstr s _ _ r
  · exact State.readReg_memWrite s _ _ r
  · exact absurd hrun hc
  · rfl

/-! ### R13 -/

/-- Settles O29: each instruction's registers follow from its destination; write-back is off when `reg_write` is 0 and
unreached on the store path; the host's load calls write memories and its snapshot nothing. -/
theorem atMostOneRegisterIsWritten : Obligations.AtMostOneRegisterIsWritten := by
  refine ⟨fun i s t h => ?_, fun fill c f d h => ?_, fun c s t hc h => hostCall_sameRegs hc h⟩
  · cases i with
    | add | addi | or | sub | lw => exact exec_readReg_of_destination_eq_some h rfl
    | beq | sw | j | sentinel => exact exec_sameRegs_of_destination_eq_none h rfl
  · rcases h with hoff | ⟨hread, hwrite⟩
    · exact datapath_regs_of_regWrite_eq_false hoff fill f d
    · exact datapath_regs_of_store hread hwrite fill f d

end Sys2Proof.Machine

/-! PROOFS. Family 20_memory.md: the only accesses are the fetch, LW's read and SW's write (R30); a data address wraps and
no access fails (R38); fetch never sees a store (R43). -/

namespace Sys2Proof.Machine

/-! ### LW and SW as equations -/

theorem exec_lw (rs rt : Reg) (imm : Byte) (s : State) :
    exec (.lw rs rt imm) s = .next (s.writeReg rt (s.memRead (effectiveAddress s rs imm))).advance := rfl

theorem exec_sw (rs rt : Reg) (imm : Byte) (s : State) :
    exec (.sw rs rt imm) s = .next (s.memWrite (effectiveAddress s rs imm) (s.readReg rt)).advance := rfl

/-- The ALU's 8-bit sum, as a number: the wrap is modulo 256 (R38). -/
theorem effectiveAddress_toNat (s : State) (rs : Reg) (imm : Byte) :
    (effectiveAddress s rs imm).toNat = ((s.readReg rs).toNat + imm.toNat) % 256 := by
  rw [effectiveAddress_eq, BitVec.toNat_add]

/-! ### The program: a step sees the word at `pc` and nothing else of it -/

/-- No instruction reads the instruction memory: with another program in place it answers the same, beside that program. -/
theorem exec_with_imem {i : Instr} {s t : State} (p : IMem) (h : exec i s = .next t) :
    exec i { s with imem := p } = .next { t with imem := p } := by
  cases i <;> (cases h; rfl)

theorem respond_with_imem {e : Event} {s t : State} (p : IMem) (h : respond s e = .next t) :
    respond { s with imem := p } e = .next { t with imem := p } := by
  match e, h with
  | .instr _, h => exact exec_with_imem p h
  | .over, h => cases h
  | .launch, h | .overrun, h | .undefined, h => cases h; rfl

/-- The event of a step depends on the program through the word at `pc` alone. -/
theorem State.event_with_imem {s : State} {p : IMem}
    (hword : Memory.read s.params.imemFill p s.pc.val = s.instrAt s.pc.val) :
    State.event { s with imem := p } = s.event := by
  have hfetch : State.instrAt { s with imem := p } s.pc.val = s.instrAt s.pc.val := hword
  simp only [State.event, hfetch]

/-! ### Data memory: who reads it and who writes it -/

/-- SW is the only instruction that writes data memory. -/
theorem exec_sameData_of_ne_sw {i : Instr} {s t : State} (hi : ∀ rs rt imm, i ≠ .sw rs rt imm)
    (h : exec i s = .next t) : SameData s t := by
  intro a
  rcases exec_cases i s with ⟨d, v, hexec, -⟩ | ⟨rs, rt, imm, hsw, -⟩ | ⟨hexec, -⟩ | ⟨-, hexec⟩
  · cases hexec.symm.trans h
    rw [State.memRead_advance, State.memRead_writeReg]
  · exact absurd hsw (hi rs rt imm)
  · cases hexec.symm.trans h
    rw [State.memRead_advance]
  · cases hexec.symm.trans h
    rw [State.memRead_finish]

/-- An instruction other than LW and SW does not read data memory: over other data it answers the same, beside that data. -/
theorem exec_with_dmem {i : Instr} {s t : State} (m : DMem)
    (hi : ∀ rs rt imm, i ≠ .lw rs rt imm ∧ i ≠ .sw rs rt imm) (h : exec i s = .next t) :
    exec i { s with dmem := m } = .next { t with dmem := m } := by
  cases i with
  | lw rs rt imm => exact absurd rfl (hi rs rt imm).1
  | sw rs rt imm => exact absurd rfl (hi rs rt imm).2
  | add | addi | or | sub | beq | j | sentinel => cases h; rfl

/-- LW reads no data cell but the one it addresses. -/
theorem exec_lw_with_dmem {rs rt : Reg} {imm : Byte} {s t : State} {m : DMem} (h : exec (.lw rs rt imm) s = .next t)
    (hcell : DMem.read s.params.dmemFill m (effectiveAddress s rs imm) = s.memRead (effectiveAddress s rs imm)) :
    exec (.lw rs rt imm) { s with dmem := m } = .next { t with dmem := m } := by
  have hread : State.memRead { s with dmem := m } (effectiveAddress { s with dmem := m } rs imm) =
      s.memRead (effectiveAddress s rs imm) := hcell
  cases h
  rw [exec_lw, hread]
  rfl

/-- SW writes no data cell but the one it addresses. -/
theorem exec_sw_memRead_of_ne {rs rt : Reg} {imm : Byte} {s t : State} (h : exec (.sw rs rt imm) s = .next t)
    {a : Byte} (ha : a ≠ effectiveAddress s rs imm) : t.memRead a = s.memRead a := by
  cases h
  rw [State.memRead_advance, State.memRead_memWrite, if_neg ha]

/-- The registers after SW do not depend on data memory: SW writes none. -/
theorem exec_sw_with_dmem_sameRegs {rs rt : Reg} {imm : Byte} {s t : State} (m : DMem)
    (h : exec (.sw rs rt imm) s = .next t) :
    ∃ u, exec (.sw rs rt imm) { s with dmem := m } = .next u ∧ SameRegs t u := by
  refine ⟨_, exec_sw rs rt imm _, fun r => ?_⟩
  have ht : t.readReg r = s.readReg r := exec_sameRegs_of_destination_eq_none h rfl r
  rw [State.readReg_advance, State.readReg_memWrite, ht]
  rfl

/-! ### The program through a run -/

theorem step_imem {s t : State} (h : step s = .next t) : t.imem = s.imem :=
  congrArg Setup.imem (step_toSetup h)

/-- The program is the one the run started with, after any number of steps. -/
theorem run_imem {k : Nat} {s t : State} (h : Host.Core.run core k s = .next t) : t.imem = s.imem :=
  run_induction (P := fun u => u.imem = s.imem) (fun _ _ hu hstep => (step_imem hstep).trans hu) k s t rfl h

/-! ### R30, R38 and R43 -/

/-- Settles O30: a step's event reads the word at `pc` and its response no program; data memory is read by LW, at its address,
and written by SW, at its address. -/
theorem accessesAreFetchLoadStore : Obligations.AccessesAreFetchLoadStore := by
  refine ⟨fun s t p _ hword h => ?_, fun i s t m hi h => ⟨?_, exec_with_dmem m hi h⟩,
    fun rs rt imm s t m h => ⟨?_, exec_lw_with_dmem h⟩,
    fun rs rt imm s t m h => ⟨fun a => exec_sw_memRead_of_ne h, exec_sw_with_dmem_sameRegs m h⟩⟩
  · rw [step_eq] at h
    rw [step_eq, State.event_with_imem hword]
    exact respond_with_imem p h
  · exact exec_sameData_of_ne_sw (fun rs rt imm => (hi rs rt imm).2) h
  · exact exec_sameData_of_ne_sw (fun _ _ _ => Instr.noConfusion) h

/-- Settles O31: the address is an 8-bit sum, and every 8-bit value is the address of a cell. -/
theorem dataAddressesWrapAndNeverFail : Obligations.DataAddressesWrapAndNeverFail := by
  refine ⟨fun s rs rt imm => ⟨effectiveAddress_toNat s rs imm, ⟨_, exec_lw rs rt imm s, ?_⟩,
    ⟨_, exec_sw rs rt imm s, ?_⟩⟩, fun s rs hbase => ?_⟩
  · rw [State.readReg_advance, State.readReg_writeReg, if_pos rfl]
  · rw [State.memRead_advance, State.memRead_memWrite, if_pos rfl]
  · rw [effectiveAddress_eq, hbase]
    decide

/-- Settles O33: no instruction changes the program, SW among them, and by induction no run does. -/
theorem fetchNeverSeesAStore : Obligations.FetchNeverSeesAStore :=
  ⟨fun _ _ _ _ _ h => State.instrAt_congr (exec_toSetup h), fun _ _ _ h => run_imem h⟩

end Sys2Proof.Machine

/-! PROOFS. Family 30_encoding.md: the classification of a word (R58). -/

namespace Sys2Proof

/-! ### The opcode field and the lookup -/

/-- The opcode is the top four bits of the word (R51). -/
theorem fields_opcode_toNat (w : Word) : (fields w).opcode.toNat = w.toNat / 4096 := by
  have hw : w.toNat < 65536 := w.isLt
  simp only [fields, BitVec.extractLsb'_toNat, Nat.shiftRight_eq_div_pow]
  omega

/-- An opcode equals a mnemonic's number exactly when the word's top four bits do. -/
theorem OpcodeMap.number_eq_opcode_iff (m : OpcodeMap) (k : Mnemonic) (w : Word) :
    m.number k = (fields w).opcode ↔ (m.number k).toNat = w.toNat / 4096 := by
  rw [← fields_opcode_toNat, BitVec.toNat_inj]

/-- An opcode that is no mnemonic's number has no row, in any map (R59). -/
theorem OpcodeMap.lookup_eq_none {m : OpcodeMap} {o : BitVec 4} (h : ∀ k, m.number k ≠ o) : m.lookup o = none :=
  Option.eq_none_iff_forall_ne_some.mpr fun k hk => h k (OpcodeMap.number_of_lookup hk)

@[simp] theorem instrOfFields_mnemonic? (k : Mnemonic) (w : Word) : (instrOfFields k w).mnemonic? = some k := by
  cases k <;> rfl

/-! ### The three cases of R58, each as an equation -/

theorem decodeWith_sentinelWord (m : OpcodeMap) : decodeWith m sentinelWord = .ok .sentinel := rfl

theorem decodeWith_of_lookup_eq_some {m : OpcodeMap} {w : Word} {k : Mnemonic} (hw : w ≠ sentinelWord)
    (h : m.lookup (fields w).opcode = some k) : decodeWith m w = .ok (instrOfFields k w) := by
  simp only [decodeWith, if_neg hw, h]

theorem decodeWith_of_lookup_eq_none {m : OpcodeMap} {w : Word} (hw : w ≠ sentinelWord)
    (h : m.lookup (fields w).opcode = none) : decodeWith m w = .error (.undefinedOpcode (fields w).opcode) := by
  simp only [decodeWith, if_neg hw, h]

/-- Under a valid map a word with a mnemonic's number as its opcode decodes to that mnemonic with the word's operands. -/
theorem decodeWith_of_number {m : OpcodeMap} (hm : m.valid = true) {w : Word} (hw : w ≠ sentinelWord) {k : Mnemonic}
    (hk : (m.number k).toNat = w.toNat / 4096) : decodeWith m w = .ok (instrOfFields k w) := by
  refine decodeWith_of_lookup_eq_some hw ?_
  rw [← (m.number_eq_opcode_iff k w).mpr hk, OpcodeMap.lookup_number hm]

theorem decodeWith_of_unassigned {m : OpcodeMap} {w : Word} (hw : w ≠ sentinelWord)
    (h : ∀ k, (m.number k).toNat ≠ w.toNat / 4096) : decodeWith m w = .error (.undefinedOpcode (fields w).opcode) :=
  decodeWith_of_lookup_eq_none hw <|
    OpcodeMap.lookup_eq_none fun k hk => h k ((m.number_eq_opcode_iff k w).mp hk)

/-! ### R58 -/

/-- The default map leaves the sentinel's opcode field 0xF unassigned (92_eei_decisions.md D1). -/
theorem defaultOpcodeMap_number_ne_sentinel_opcode (k : Mnemonic) :
    (defaultOpcodeMap.number k).toNat ≠ 0xFFFF / 4096 := by
  cases k <;> decide

/-- Settles O5: `decodeWith` tests the whole word before it looks the opcode up; in a valid map the lookup finds the mnemonic
whose number the opcode is, and in any map it finds none for an opcode that is no number. -/
theorem wordsAreClassifiedInOrder : Obligations.WordsAreClassifiedInOrder :=
  ⟨decodeWith_sentinelWord,
    fun _ w k hm hw hk => ⟨instrOfFields k w, decodeWith_of_number hm hw hk, instrOfFields_mnemonic? k w⟩,
    fun _ w hw hk => ⟨(fields w).opcode, fields_opcode_toNat w, decodeWith_of_unassigned hw hk⟩,
    defaultOpcodeMap_number_ne_sentinel_opcode⟩

end Sys2Proof

/-! PROOFS. Family 40_alu_control_decoder.md: the decoder's fields (R70), the Control Unit's rows (R75) and the ALU's
subtraction (R82). -/

namespace Sys2Proof.Machine

/-! ### The decoder's fields -/

/-- A bit field as a number: the bits below `start` divided away, the bits above it dropped. -/
theorem extractLsb'_toNat_eq_div_mod (w : Word) (start len : Nat) :
    (w.extractLsb' start len).toNat = w.toNat / 2 ^ start % 2 ^ len := by
  rw [BitVec.extractLsb'_toNat, Nat.shiftRight_eq_div_pow]

theorem fields_rs_toNat (w : Word) : (fields w).rs.toBits.toNat = w.toNat / 1024 % 4 := by
  simp only [fields, Reg.toBits_ofBits, extractLsb'_toNat_eq_div_mod, Nat.reducePow]

theorem fields_rt_toNat (w : Word) : (fields w).rt.toBits.toNat = w.toNat / 256 % 4 := by
  simp only [fields, Reg.toBits_ofBits, extractLsb'_toNat_eq_div_mod, Nat.reducePow]

theorem fields_rd_toNat (w : Word) : (fields w).rd.toBits.toNat = w.toNat / 64 % 4 := by
  simp only [fields, Reg.toBits_ofBits, extractLsb'_toNat_eq_div_mod, Nat.reducePow]

theorem fields_imm_toNat (w : Word) : (fields w).imm.toNat = w.toNat % 256 := by
  simp only [fields, extractLsb'_toNat_eq_div_mod, Nat.reducePow, Nat.div_one]

/-- `rd` and the immediate's top two bits are the same wires (R70). -/
theorem fields_rd_eq_imm_div (w : Word) : (fields w).rd.toBits.toNat = (fields w).imm.toNat / 64 := by
  rw [fields_rd_toNat, fields_imm_toNat]
  omega

/-! ### The Control Unit -/

/-- Under a valid map a mnemonic's number selects that mnemonic's row. -/
theorem controlUnit_number {m : OpcodeMap} (hm : m.valid = true) (k : Mnemonic) :
    controlUnit m (m.number k) = some (controlRow k) := by
  rw [controlUnit, OpcodeMap.lookup_number hm, Option.map_some]

theorem controlUnit_eq_none {m : OpcodeMap} {o : BitVec 4} (h : ∀ k, m.number k ≠ o) : controlUnit m o = none := by
  rw [controlUnit, OpcodeMap.lookup_eq_none h, Option.map_none]

/-! ### The ALU's subtraction -/

/-- The difference as a number: the wrap is modulo 256. -/
theorem alu_sub_result_toNat (a b : Byte) :
    (alu .sub a b).result.toNat = (a.toNat + 256 - b.toNat) % 256 := by
  have hb : b.toNat < 256 := b.isLt
  rw [alu_sub_result, BitVec.toNat_sub']
  omega

/-- The carry of a subtraction is the borrow. -/
theorem alu_sub_carryOut_eq_true_iff (a b : Byte) : (alu .sub a b).carryOut = true ↔ a.toNat < b.toNat := by
  rw [alu_sub_carryOut, decide_eq_true_iff]

/-! ### R70, R75 and R82 -/

/-- Settles O4: each field is a bit slice of the word, read as a quotient and a remainder. -/
theorem fieldsStandAtTheirBits : Obligations.FieldsStandAtTheirBits := fun w =>
  ⟨fields_opcode_toNat w, fields_rs_toNat w, fields_rt_toNat w, fields_rd_toNat w, fields_imm_toNat w,
    fields_rd_eq_imm_div w⟩

/-- Settles O8: in a valid map the lookup finds each mnemonic by its number, and in any map it finds none for an opcode
that is no number. -/
theorem controlUnitReturnsTheRow : Obligations.ControlUnitReturnsTheRow := fun _ hm =>
  ⟨controlUnit_number hm .add, controlUnit_number hm .addi, controlUnit_number hm .or, controlUnit_number hm .sub,
    controlUnit_number hm .beq, controlUnit_number hm .lw, controlUnit_number hm .sw, controlUnit_number hm .j,
    fun _ h => controlUnit_eq_none h⟩

/-- Settles O11: the general clauses are the 8-bit difference and the borrow; the corner cases are closed instances that the
ALU evaluates. -/
theorem aluSubWrapsAndBorrows : Obligations.AluSubWrapsAndBorrows := by
  refine ⟨fun a b => ⟨alu_sub_result_toNat a b, alu_sub_carryOut_eq_true_iff a b⟩, ?_⟩
  decide

end Sys2Proof.Machine

/-! PROOFS. Family 41_execution_engine.md: the arbiter and the write-back of the engine (R107, R108), `execute` as the
contract of one instruction (R100, R102), and the host's two load calls (R121, R122). -/

namespace Sys2Proof.Machine

/-! ### The arbiter, one equation per branch (R107) -/

theorem memoryStage_of_read {c : ControlBundle} (hread : c.memRead = true) (fill r v : Byte) (m : DMem) :
    memoryStage fill c r v m = (some (DMem.read fill m r), m) := by
  rw [memoryStage, if_pos hread]

theorem memoryStage_of_store {c : ControlBundle} (hread : c.memRead = false) (hwrite : c.memWrite = true)
    (fill r v : Byte) (m : DMem) : memoryStage fill c r v m = (none, DMem.write fill m r v) := by
  rw [memoryStage, if_neg (Bool.eq_false_iff.mp hread), if_pos hwrite]

theorem memoryStage_of_neither {c : ControlBundle} (hread : c.memRead = false) (hwrite : c.memWrite = false)
    (fill r v : Byte) (m : DMem) : memoryStage fill c r v m = (some r, m) := by
  rw [memoryStage, if_neg (Bool.eq_false_iff.mp hread), if_neg (Bool.eq_false_iff.mp hwrite)]

/-- No access of the arbiter looks at `mem_to_reg`. -/
theorem memoryStage_with_memToReg (fill : Byte) (c : ControlBundle) (b : Bool) (r v : Byte) (m : DMem) :
    memoryStage fill { c with memToReg := b } r v m = memoryStage fill c r v m := rfl

/-- Off the store path the arbiter hands on the cell read, or else the ALU result. -/
theorem memoryStage_fst_of_not_store {c : ControlBundle} (h : c.memRead = true ∨ c.memWrite = false)
    (fill r v : Byte) (m : DMem) :
    (memoryStage fill c r v m).1 = some (if c.memRead then DMem.read fill m r else r) := by
  cases hread : c.memRead with
  | true => rw [memoryStage_of_read hread]; rfl
  | false =>
    have hwrite : c.memWrite = false := h.resolve_left (Bool.eq_false_iff.mp hread)
    rw [memoryStage_of_neither hread hwrite]; rfl

/-! ### The control table beside the arbiter -/

/-- No row reads and writes memory, so that the read's priority decides nothing. -/
theorem controlRow_not_read_and_write (k : Mnemonic) :
    ¬ ((controlRow k).memRead = true ∧ (controlRow k).memWrite = true) := by
  cases k <;> decide

/-- No row stores and writes a register, so that the store's suppression decides nothing. -/
theorem controlRow_not_write_and_regWrite (k : Mnemonic) :
    ¬ ((controlRow k).memWrite = true ∧ (controlRow k).regWrite = true) := by
  cases k <;> decide

/-! ### Write-back (R108) -/

/-- Write-back with data changes the destination register alone, and only if `reg_write` is set. -/
theorem writeBackStage_some_get (c : ControlBundle) (f : Fields) (v : Byte) (g : RegFile) (r : Reg) :
    (writeBackStage c f (some v) g).get r =
      if c.regWrite = true ∧ r = destination c f.rt f.rd then v else g.get r := by
  cases hw : c.regWrite with
  | true => simp [writeBackStage, hw, RegFile.get_set]
  | false => simp [writeBackStage_of_regWrite_eq_false hw]

/-! ### `execute`, by the Control Unit's answer (R100, R102) -/

theorem execute_of_controlUnit_eq_none {p : Params} {w : Word} (h : controlUnit p.opcodeMap (fields w).opcode = none)
    (d : Data) : execute p w d = .error .undefinedOpcode := by
  simp only [execute, h]

theorem execute_of_controlUnit_eq_some {p : Params} {w : Word} {c : ControlBundle}
    (h : controlUnit p.opcodeMap (fields w).opcode = some c) (d : Data) :
    execute p w d = .ok (datapath p.dmemFill c (fields w) d) := by
  simp only [execute, h]

/-- The one failure of `execute`, and when it happens. -/
theorem execute_eq_error_iff (p : Params) (w : Word) (d : Data) (e : ErrorKind) :
    execute p w d = .error e ↔ e = .undefinedOpcode ∧ controlUnit p.opcodeMap (fields w).opcode = none := by
  cases h : controlUnit p.opcodeMap (fields w).opcode with
  | none => simp [execute_of_controlUnit_eq_none h, eq_comm]
  | some c => simp [execute_of_controlUnit_eq_some h]

/-- With `valid` at 0 both write enables are 0 (R102, R110, R112). -/
theorem datapathPorts_invalid (fill : Byte) (c : ControlBundle) (f : Fields) (d : Data) :
    datapathPorts fill false c f d = d := rfl

theorem controlUnit_of_lookup_eq_some {m : OpcodeMap} {o : BitVec 4} {k : Mnemonic} (h : m.lookup o = some k) :
    controlUnit m o = some (controlRow k) := by
  rw [controlUnit, h, Option.map_some]

theorem controlUnit_eq_none_iff {m : OpcodeMap} {o : BitVec 4} : controlUnit m o = none ↔ m.lookup o = none :=
  Option.map_eq_none_iff

/-! ### One instruction on the registers and the data cells -/

/-- An instruction's own meaning does to the data what the datapath does under the instruction's control row. -/
theorem exec_instrOfFields_data (k : Mnemonic) (w : Word) (s : State) :
    ∃ t, exec (instrOfFields k w) s = .next t ∧
      t.data = datapath s.params.dmemFill (controlRow k) (fields w) s.data := by
  cases k with
  | add | addi | or | sub | beq | lw | sw | j => exact ⟨_, rfl, rfl⟩

/-- An instruction reads no `pc`, no status and no program: what it leaves in the registers and the data cells follows from
the parameters and what they held. -/
theorem exec_data_congr {s s' : State} (hp : s'.params = s.params) (hd : s'.data = s.data) (i : Instr) :
    ∃ t t', exec i s = .next t ∧ exec i s' = .next t' ∧ t'.data = t.data := by
  obtain ⟨⟨regs, pc, status, dmem⟩, params, imem⟩ := s
  obtain ⟨⟨regs', pc', status', dmem'⟩, params', imem'⟩ := s'
  obtain ⟨rfl, rfl⟩ := Data.mk.inj hd
  cases hp
  cases i with
  | add | addi | or | sub | beq | lw | sw | j | sentinel => exact ⟨_, _, rfl, rfl, rfl⟩

/-! ### A RUNNING step at a fetched word, by the opcode lookup -/

theorem State.event_of_decode_eq_ok {s : State} {i : Instr} (hs : s.status = .running) (hpc : s.pc.val < 256)
    (h : decodeWith s.params.opcodeMap (s.instrAt s.pc.val) = .ok i) : s.event = .instr i := by
  simp only [State.event, hs, if_neg (Nat.ne_of_lt hpc), h]

theorem State.event_of_decode_eq_error {s : State} {e : DecodeError} (hs : s.status = .running) (hpc : s.pc.val < 256)
    (h : decodeWith s.params.opcodeMap (s.instrAt s.pc.val) = .error e) : s.event = .undefined := by
  simp only [State.event, hs, if_neg (Nat.ne_of_lt hpc), h]

theorem step_of_lookup_eq_some {s : State} {k : Mnemonic} (hs : s.status = .running) (hpc : s.pc.val < 256)
    (hw : s.instrAt s.pc.val ≠ sentinelWord)
    (h : s.params.opcodeMap.lookup (fields (s.instrAt s.pc.val)).opcode = some k) :
    step s = exec (instrOfFields k (s.instrAt s.pc.val)) s := by
  rw [step_eq, State.event_of_decode_eq_ok hs hpc (decodeWith_of_lookup_eq_some hw h)]
  rfl

/-- An undefined opcode halts the run: the step takes the error (R102, R172). -/
theorem step_of_lookup_eq_none {s : State} (hs : s.status = .running) (hpc : s.pc.val < 256)
    (hw : s.instrAt s.pc.val ≠ sentinelWord)
    (h : s.params.opcodeMap.lookup (fields (s.instrAt s.pc.val)).opcode = none) :
    step s = .next (s.takeError .undefinedOpcode) := by
  rw [step_eq, State.event_of_decode_eq_error hs hpc (decodeWith_of_lookup_eq_none hw h)]
  rfl

/-! ### The host's two load calls, by phase (R121 to R123) -/

theorem hostCall_loadInstruction_of_load {s : State} {index word : Nat} (hs : s.status = .load) (hi : index < 256)
    (hw : word < 65536) :
    hostCall (.loadInstruction index word) s = .next (s.setInstr index (BitVec.ofNat 16 word)) := by
  rw [hostCall, if_pos hs, if_pos ⟨hi, hw⟩]

theorem hostCall_loadInstruction_of_ne_load {s : State} (hs : s.status ≠ .load) (index word : Nat) :
    hostCall (.loadInstruction index word) s = .refused .hostCallOutOfPhase := by
  rw [hostCall, if_neg hs]

theorem hostCall_loadData_of_load {s : State} {address value : Nat} (hs : s.status = .load) (ha : address < 256)
    (hv : value < 256) :
    hostCall (.loadData address value) s = .next (s.memWrite (BitVec.ofNat 8 address) (BitVec.ofNat 8 value)) := by
  rw [hostCall, if_pos hs, if_pos ⟨ha, hv⟩]

theorem hostCall_loadData_of_ne_load {s : State} (hs : s.status ≠ .load) (address value : Nat) :
    hostCall (.loadData address value) s = .refused .hostCallOutOfPhase := by
  rw [hostCall, if_neg hs]

/-- The host's address as a number names the same cell as its 8-bit value. -/
theorem byte_eq_ofNat_iff {n : Nat} (hn : n < 256) (a : Byte) : a = BitVec.ofNat 8 n ↔ a.toNat = n := by
  rw [← BitVec.toNat_inj, BitVec.toNat_ofNat, Nat.mod_eq_of_lt hn]

/-! ### R107, R108, R100, R102, R121 and R122 -/

/-- Settles O14: the arbiter has one equation per branch, the store path hands nothing to write-back, and the table has no row
in which two of the three signals meet. -/
theorem arbiterPriority : Obligations.ArbiterPriority := by
  refine ⟨fun fill c r v m => ⟨fun hread => memoryStage_of_read hread fill r v m, fun hread hwrite => ?_,
      fun hread hwrite => memoryStage_of_neither hread hwrite fill r v m,
      fun b => memoryStage_with_memToReg fill c b r v m⟩,
    fun fill c f d hread hwrite => datapath_regs_of_store hread hwrite fill f d,
    fun k => ⟨controlRow_not_read_and_write k, controlRow_not_write_and_regWrite k⟩⟩
  rw [memoryStage_of_store hread hwrite]
  exact ⟨rfl, DMem.read_write fill m r v⟩

/-- Settles O15: off the store path the arbiter hands data to write-back, which changes the destination alone. -/
theorem writeBackDestination : Obligations.WriteBackDestination := by
  refine ⟨fun fill c f d hnostore r => ?_, fun rt rd => ⟨rfl, rfl, rfl, rfl, rfl⟩⟩
  rw [datapath_regs, memoryStage_fst_of_not_store hnostore, writeBackStage_some_get]
  rfl

/-- Settles O18: a step at a word with a row is the decoded instruction, which does what the datapath does under that row; at
a word without one `execute` fails and the step only sets the status. -/
theorem executeDependsOnWordRegistersData : Obligations.ExecuteDependsOnWordRegistersData := by
  refine ⟨fun i s s' hp hd => exec_data_congr hp hd i,
    fun p w d e h => ((execute_eq_error_iff p w d e).mp h).1, fun s hs hpc hw => ?_⟩
  cases hrow : s.params.opcodeMap.lookup (fields (s.instrAt s.pc.val)).opcode with
  | some k =>
    obtain ⟨t, hexec, hdata⟩ := exec_instrOfFields_data k (s.instrAt s.pc.val) s
    refine ⟨t, (step_of_lookup_eq_some hs hpc hw hrow).trans hexec, ?_⟩
    rw [execute_of_controlUnit_eq_some (controlUnit_of_lookup_eq_some hrow)]
    exact hdata
  | none =>
    refine ⟨_, step_of_lookup_eq_none hs hpc hw hrow, ?_⟩
    rw [execute_of_controlUnit_eq_none (controlUnit_eq_none_iff.mpr hrow)]
    rfl

/-- Settles O19: `execute` fails exactly where the Control Unit answers none; there the step takes the error, which writes no
register and no data cell. -/
theorem undefinedOpcodeWritesNothing : Obligations.UndefinedOpcodeWritesNothing := by
  refine ⟨fun p w d => ?_, datapathPorts_invalid, fun s hs hpc hw hrow =>
    ⟨_, step_of_lookup_eq_none hs hpc hw (controlUnit_eq_none_iff.mp hrow), s.readReg_takeError _, s.memRead_takeError _⟩⟩
  rw [execute_eq_error_iff]
  exact and_iff_right rfl

/-- Settles O43: in LOAD the call is one write of the instruction memory, outside LOAD it is refused. -/
theorem loadInstructionSetsOneWord : Obligations.LoadInstructionSetsOneWord := by
  refine fun s index word hi hw => ⟨fun hs => ⟨_, hostCall_loadInstruction_of_load hs hi hw, s.instrAt_setInstr _ _,
    s.readReg_setInstr _ _, s.memRead_setInstr _ _, rfl, rfl⟩, fun hs t h => ?_⟩
  rw [hostCall_loadInstruction_of_ne_load hs] at h
  cases h

/-- Settles O44: in LOAD the call is one write of the data memory, outside LOAD it is refused. -/
theorem loadDataSetsOneCell : Obligations.LoadDataSetsOneCell := by
  refine fun s address value ha hv => ⟨fun hs => ⟨_, hostCall_loadData_of_load hs ha hv, fun a => ?_,
    s.readReg_memWrite _ _, s.instrAt_memWrite _ _, rfl, rfl⟩, fun hs t h => ?_⟩
  · simp only [State.memRead_memWrite, byte_eq_ofNat_iff ha]
  · rw [hostCall_loadData_of_ne_load hs] at h
    cases h

end Sys2Proof.Machine

/-! PROOFS. Family 42_reg_reg.md: ADD (R130). -/

namespace Sys2Proof

/-! ### The word of a register-register instruction -/

/-- The five parts of a register-register word, one after the other, are its opcode, its sources and its low byte (R51). -/
theorem append_eq_packWord (opcode : BitVec 4) (rs rt rd : Reg) (g : BitVec 6) :
    (opcode ++ rs.toBits ++ rt.toBits ++ rd.toBits ++ g : Word) = packWord opcode rs rt (rd.toBits ++ g) := by
  refine BitVec.eq_of_getLsbD_eq fun i hi => ?_
  simp only [packWord, BitVec.getLsbD_append]
  interval_cases i <;> simp

/-- The low six bits of a register-register word are the ignored ones (R53). -/
theorem packWord_ignored (opcode : BitVec 4) (rs rt rd : Reg) (g : BitVec 6) :
    (packWord opcode rs rt (rd.toBits ++ g)).extractLsb' 0 6 = g := by
  refine BitVec.eq_of_getLsbD_eq fun i hi => ?_
  simp only [packWord, BitVec.getLsbD_extractLsb', BitVec.getLsbD_append]
  interval_cases i <;> simp

/-- Under a valid map a word packed with a mnemonic's number is an instruction of that mnemonic. -/
theorem decodeWith_packWord {m : OpcodeMap} (hm : m.valid = true) (k : Mnemonic) {rs rt : Reg} {low : BitVec 8}
    (hw : packWord (m.number k) rs rt low ≠ sentinelWord) :
    decodeWith m (packWord (m.number k) rs rt low) = .ok (instrOfFields k (packWord (m.number k) rs rt low)) := by
  refine decodeWith_of_lookup_eq_some hw ?_
  rw [fields_packWord, OpcodeMap.lookup_number hm]

theorem instrOfFields_add_packWord (opcode : BitVec 4) (rs rt rd : Reg) (g : BitVec 6) :
    instrOfFields .add (packWord opcode rs rt (rd.toBits ++ g)) = .add rs rt rd g := by
  simp only [instrOfFields, fields_packWord, Laws.EncodedFields.rd_of_low, packWord_ignored]

theorem decodeWith_add {m : OpcodeMap} (hm : m.valid = true) {rs rt rd : Reg} {g : BitVec 6}
    (hw : (m.add ++ rs.toBits ++ rt.toBits ++ rd.toBits ++ g : Word) ≠ sentinelWord) :
    decodeWith m (m.add ++ rs.toBits ++ rt.toBits ++ rd.toBits ++ g) = .ok (.add rs rt rd g) := by
  rw [append_eq_packWord] at hw ⊢
  rw [← instrOfFields_add_packWord m.add]
  exact decodeWith_packWord hm .add hw

end Sys2Proof

namespace Sys2Proof.Machine

/-! ### One register written, then `pc` advanced -/

theorem State.writesOnly_writeReg_advance (s : State) (d : Reg) (v : Byte) :
    WritesOnly s (s.writeReg d v).advance d v := fun r => by
  rw [State.readReg_advance, State.readReg_writeReg]

theorem State.sameData_writeReg_advance (s : State) (d : Reg) (v : Byte) :
    SameData s (s.writeReg d v).advance := fun a => by
  rw [State.memRead_advance, State.memRead_writeReg]

theorem State.sameProgram_writeReg_advance (s : State) (d : Reg) (v : Byte) :
    SameProgram s (s.writeReg d v).advance := fun i => by
  rw [State.instrAt_advance, State.instrAt_writeReg]

theorem State.goesOn_writeReg_advance {s : State} (hpc : s.pc.val < 256) (d : Reg) (v : Byte) :
    GoesOn s (s.writeReg d v).advance :=
  ⟨Pc.next_val_of_lt hpc, rfl⟩

/-! ### The ALU's addition -/

/-- The sum is wrapped modulo 256 (R81). -/
theorem alu_add_result_eq_ofNat (a b : Byte) :
    (alu .add a b).result = BitVec.ofNat 8 ((a.toNat + b.toNat) % 256) := by
  refine BitVec.eq_of_toNat_eq ?_
  rw [alu_add_result, BitVec.toNat_add, BitVec.toNat_ofNat, Nat.mod_mod]

theorem alu_add_zero_eq_true_iff (a b : Byte) : (alu .add a b).zero = true ↔ (alu .add a b).result = 0#8 :=
  zeroFlag_eq_true _

/-- The wrapped sum is below the first operand exactly when the true sum does not fit in 8 bits (R81). -/
theorem alu_add_carryOut_eq_true_iff (a b : Byte) : (alu .add a b).carryOut = true ↔ 256 ≤ a.toNat + b.toNat := by
  have ha : a.toNat < 256 := a.isLt
  have hb : b.toNat < 256 := b.isLt
  rw [alu_add_carryOut, decide_eq_true_iff, BitVec.toNat_add]
  omega

/-! ### R130 -/

theorem exec_add (rs rt rd : Reg) (g : BitVec 6) (s : State) :
    exec (.add rs rt rd g) s = .next (s.writeReg rd (alu .add (s.readReg rs) (s.readReg rt)).result).advance := rfl

/-- Settles O20: ADD is one register write of the ALU's wrapped sum before `pc` advances; its word is a packed one, and its
carry is the sum's ninth bit. -/
theorem addWritesTheWrappedSum : Obligations.AddWritesTheWrappedSum := by
  refine ⟨fun rs rt rd g s hpc => ⟨_, exec_add rs rt rd g s, ?_, s.sameData_writeReg_advance _ _,
      s.sameProgram_writeReg_advance _ _, State.goesOn_writeReg_advance hpc _ _⟩,
    fun m rs rt rd g hm hw => decodeWith_add hm hw, rfl,
    fun rs rt s => ⟨alu_add_zero_eq_true_iff _ _, alu_add_carryOut_eq_true_iff _ _⟩⟩
  rw [alu_add_result_eq_ofNat]
  exact s.writesOnly_writeReg_advance _ _

end Sys2Proof.Machine

/-! PROOFS. Family 43_reg_imm.md: ADDI (R140). -/

namespace Sys2Proof

theorem instrOfFields_addi_packWord (opcode : BitVec 4) (rs rt : Reg) (imm : Byte) :
    instrOfFields .addi (packWord opcode rs rt imm) = .addi rs rt imm := by
  simp only [instrOfFields, fields_packWord]

/-- No bit of the word is ignored: the whole low byte is the immediate, its top two bits included (R140). -/
theorem decodeWith_addi {m : OpcodeMap} (hm : m.valid = true) {rs rt : Reg} {imm : Byte}
    (hw : packWord m.addi rs rt imm ≠ sentinelWord) :
    decodeWith m (packWord m.addi rs rt imm) = .ok (.addi rs rt imm) := by
  rw [← instrOfFields_addi_packWord m.addi]
  exact decodeWith_packWord hm .addi hw

end Sys2Proof

namespace Sys2Proof.Machine

theorem exec_addi (rs rt : Reg) (imm : Byte) (s : State) :
    exec (.addi rs rt imm) s = .next (s.writeReg rt (alu .add (s.readReg rs) imm).result).advance := rfl

/-- Settles O23: ADDI is one register write of the ALU's wrapped sum before `pc` advances, to `rt` whatever the immediate's
top bits are; its word is a packed one, and its carry is the sum's ninth bit. -/
theorem addiWritesTheWrappedSum : Obligations.AddiWritesTheWrappedSum := by
  refine ⟨fun rs rt imm s hpc => ⟨_, exec_addi rs rt imm s, ?_, s.sameData_writeReg_advance _ _,
      s.sameProgram_writeReg_advance _ _, State.goesOn_writeReg_advance hpc _ _⟩,
    fun m rs rt imm hm hw => decodeWith_addi hm hw, rfl,
    fun rs imm s => ⟨alu_add_zero_eq_true_iff _ _, alu_add_carryOut_eq_true_iff _ _⟩⟩
  rw [alu_add_result_eq_ofNat]
  exact s.writesOnly_writeReg_advance _ _

end Sys2Proof.Machine

/-! PROOFS. Family 44_load_store.md: LW (R150) and SW (R152). -/

namespace Sys2Proof

/-- No bit of the word is ignored: the whole low byte is the offset (R150). -/
theorem decodeWith_lw {m : OpcodeMap} (hm : m.valid = true) {rs rt : Reg} {imm : Byte}
    (hw : packWord m.lw rs rt imm ≠ sentinelWord) :
    decodeWith m (packWord m.lw rs rt imm) = .ok (.lw rs rt imm) := by
  have hdecode : decodeWith m (packWord m.lw rs rt imm) = .ok (instrOfFields .lw (packWord m.lw rs rt imm)) :=
    decodeWith_packWord hm .lw hw
  simpa only [instrOfFields, fields_packWord] using hdecode

/-- No bit of the word is ignored: the whole low byte is the offset (R152). -/
theorem decodeWith_sw {m : OpcodeMap} (hm : m.valid = true) {rs rt : Reg} {imm : Byte}
    (hw : packWord m.sw rs rt imm ≠ sentinelWord) :
    decodeWith m (packWord m.sw rs rt imm) = .ok (.sw rs rt imm) := by
  have hdecode : decodeWith m (packWord m.sw rs rt imm) = .ok (instrOfFields .sw (packWord m.sw rs rt imm)) :=
    decodeWith_packWord hm .sw hw
  simpa only [instrOfFields, fields_packWord] using hdecode

end Sys2Proof

namespace Sys2Proof.Machine

/-! ### The flags of an address -/

/-- The address is the ALU's sum, so the flags of LW and SW are those of that sum: address 0, and wrapped. -/
theorem effectiveAddress_flags (rs : Reg) (imm : Byte) (s : State) :
    ((alu .add (s.readReg rs) imm).zero = true ↔ effectiveAddress s rs imm = 0#8) ∧
    ((alu .add (s.readReg rs) imm).carryOut = true ↔ 256 ≤ (s.readReg rs).toNat + imm.toNat) :=
  ⟨alu_add_zero_eq_true_iff _ _, alu_add_carryOut_eq_true_iff _ _⟩

/-! ### One cell written, then `pc` advanced -/

theorem State.memRead_memWrite_advance (s : State) (a v b : Byte) :
    (s.memWrite a v).advance.memRead b = if b = a then v else s.memRead b := by
  rw [State.memRead_advance, State.memRead_memWrite]

theorem State.sameRegs_memWrite_advance (s : State) (a v : Byte) : SameRegs s (s.memWrite a v).advance := fun r => by
  rw [State.readReg_advance, State.readReg_memWrite]

theorem State.sameProgram_memWrite_advance (s : State) (a v : Byte) :
    SameProgram s (s.memWrite a v).advance := fun i => by
  rw [State.instrAt_advance, State.instrAt_memWrite]

theorem State.goesOn_memWrite_advance {s : State} (hpc : s.pc.val < 256) (a v : Byte) :
    GoesOn s (s.memWrite a v).advance :=
  ⟨Pc.next_val_of_lt hpc, rfl⟩

/-! ### R150 and R152 -/

/-- Settles O24: LW is one register write before `pc` advances, and both the address and the cell are read from the state
before it, so `rt = rs` is no special case. -/
theorem lwLoadsTheCell : Obligations.LwLoadsTheCell :=
  ⟨fun rs rt imm s hpc => ⟨_, exec_lw rs rt imm s, s.writesOnly_writeReg_advance _ _, effectiveAddress_toNat s rs imm,
      s.sameData_writeReg_advance _ _, s.sameProgram_writeReg_advance _ _, State.goesOn_writeReg_advance hpc _ _⟩,
    fun _ _ _ _ hm hw => decodeWith_lw hm hw, rfl, effectiveAddress_flags⟩

/-- Settles O25: SW is one write of a data cell before `pc` advances; the rule of `memWrite` is its frame. -/
theorem swStoresTheRegister : Obligations.SwStoresTheRegister :=
  ⟨fun rs rt imm s hpc => ⟨_, exec_sw rs rt imm s, s.memRead_memWrite_advance _ _, effectiveAddress_toNat s rs imm,
      s.sameRegs_memWrite_advance _ _, s.sameProgram_memWrite_advance _ _, State.goesOn_memWrite_advance hpc _ _⟩,
    fun _ _ _ _ hm hw => decodeWith_sw hm hw, rfl, effectiveAddress_flags⟩

end Sys2Proof.Machine

/-! PROOFS. Family 70_reset_and_hazards.md: a load that follows a store (R202). -/

namespace Sys2Proof.Machine

/-- The cell SW addresses holds, after it, the register it stored. -/
theorem exec_sw_memRead_effectiveAddress {rs rt : Reg} {imm : Byte} {s t : State}
    (h : exec (.sw rs rt imm) s = .next t) : t.memRead (effectiveAddress s rs imm) = s.readReg rt := by
  cases h
  rw [State.memRead_memWrite_advance, if_pos rfl]

/-- The destination of LW holds, after it, the cell at the address, which is taken from the base before the load. -/
theorem exec_lw_readReg_destination {rs rt : Reg} {imm : Byte} {s t : State}
    (h : exec (.lw rs rt imm) s = .next t) : t.readReg rt = s.memRead (effectiveAddress s rs imm) := by
  cases h
  rw [s.writesOnly_writeReg_advance, if_pos rfl]

/-- Settles O32: the load reads the one cell the store wrote, whichever base and immediate give its address. -/
theorem loadAfterStoreReturnsTheStoredValue : Obligations.LoadAfterStoreReturnsTheStoredValue := by
  intro rs rt rs' rt' imm imm' s t hsw haddr
  have hlw := exec_lw rs' rt' imm' t
  refine ⟨_, hlw, ?_⟩
  calc _ = t.memRead (effectiveAddress t rs' imm') := exec_lw_readReg_destination hlw
    _ = t.memRead (effectiveAddress s rs imm) := by rw [haddr]
    _ = s.readReg rt := exec_sw_memRead_effectiveAddress hsw

end Sys2Proof.Machine

/-! PROOFS. Family other: decoding and encoding as inverses of each other (R58, R60, R66), the ignored bits (R53, R61), and the
words of the default map. -/

namespace Sys2Proof

/-! ### Decoding, by its answer -/

/-- What a word other than the sentinel decodes to is the instruction of its row, with its operands. -/
theorem exists_lookup_of_decodeWith_eq_ok {m : OpcodeMap} {w : Word} {i : Instr} (hw : w ≠ sentinelWord)
    (h : decodeWith m w = .ok i) : ∃ k, m.lookup (fields w).opcode = some k ∧ i = instrOfFields k w := by
  cases hrow : m.lookup (fields w).opcode with
  | some k =>
    rw [decodeWith_of_lookup_eq_some hw hrow] at h
    cases h
    exact ⟨k, rfl, rfl⟩
  | none =>
    rw [decodeWith_of_lookup_eq_none hw hrow] at h
    cases h

/-- A word is undefined exactly when it is not the sentinel and its opcode has no row (R59). -/
theorem decodeWith_eq_error_iff (m : OpcodeMap) (w : Word) :
    (∃ e, decodeWith m w = .error e) ↔ w ≠ sentinelWord ∧ m.lookup (fields w).opcode = none := by
  constructor
  · rintro ⟨e, he⟩
    have hw : w ≠ sentinelWord := by rintro rfl; cases he
    refine ⟨hw, ?_⟩
    cases hrow : m.lookup (fields w).opcode with
    | some k =>
      rw [decodeWith_of_lookup_eq_some hw hrow] at he
      cases he
    | none => rfl
  · rintro ⟨hw, hrow⟩
    exact ⟨_, decodeWith_of_lookup_eq_none hw hrow⟩

/-! ### The operands and the opcode of an encoded instruction -/

theorem fields_encodeWith_opcode (m : OpcodeMap) {i : Instr} {k : Mnemonic} (hk : i.mnemonic? = some k) :
    (fields (encodeWith m i)).opcode = m.number k := by
  cases i with
  | j g => cases hk; exact Laws.EncodedFields.j g m
  | sentinel => cases hk
  | add | addi | or | sub | beq | lw | sw =>
    cases hk
    simp only [encodeWith, fields_packWord, OpcodeMap.number]

/-- The word of an instruction holds every operand and every ignored bit of it (R66). -/
theorem instrOfFields_encodeWith (m : OpcodeMap) {i : Instr} {k : Mnemonic} (hk : i.mnemonic? = some k) :
    instrOfFields k (encodeWith m i) = i := by
  cases i with
  | add | or | sub =>
    cases hk
    simp only [instrOfFields, encodeWith, fields_packWord, Laws.EncodedFields.rd_of_low, packWord_ignored]
  | addi | beq | lw | sw =>
    cases hk
    simp only [instrOfFields, encodeWith, fields_packWord]
  | j g =>
    cases hk
    simp only [instrOfFields, encodeWith, BitVec.extractLsb'_append_eq_right]
  | sentinel => cases hk

/-! ### A word put together from its own fields -/

theorem packWord_fields (w : Word) : packWord (fields w).opcode (fields w).rs (fields w).rt (fields w).imm = w := by
  refine BitVec.eq_of_getLsbD_eq fun i hi => ?_
  simp only [packWord, fields, Reg.toBits_ofBits, BitVec.getLsbD_append, BitVec.getLsbD_extractLsb']
  interval_cases i <;> simp

/-- The low byte of a register-register word is `rd` and the ignored bits (R52, R53). -/
theorem fields_rd_append_ignored (w : Word) : ((fields w).rd.toBits ++ w.extractLsb' 0 6 : BitVec 8) = (fields w).imm := by
  refine BitVec.eq_of_getLsbD_eq fun i hi => ?_
  simp only [fields, Reg.toBits_ofBits, BitVec.getLsbD_append, BitVec.getLsbD_extractLsb']
  interval_cases i <;> simp

theorem fields_opcode_append_low (w : Word) : ((fields w).opcode ++ w.extractLsb' 0 12 : Word) = w := by
  refine BitVec.eq_of_getLsbD_eq fun i hi => ?_
  simp only [fields, BitVec.getLsbD_append, BitVec.getLsbD_extractLsb']
  interval_cases i <;> simp

/-- An instruction read off a word with its mnemonic's opcode encodes to that word: no bit is dropped (R61). -/
theorem encodeWith_instrOfFields {m : OpcodeMap} {k : Mnemonic} {w : Word} (h : m.number k = (fields w).opcode) :
    encodeWith m (instrOfFields k w) = w := by
  cases k with
  | add | or | sub =>
    simp only [OpcodeMap.number] at h
    simp only [instrOfFields, encodeWith, h, fields_rd_append_ignored, packWord_fields]
  | addi | beq | lw | sw =>
    simp only [OpcodeMap.number] at h
    simp only [instrOfFields, encodeWith, h, packWord_fields]
  | j =>
    simp only [OpcodeMap.number] at h
    simp only [instrOfFields, encodeWith, h, fields_opcode_append_low]

/-! ### Which instructions would be the sentinel (R60) -/

theorem fields_sentinelWord : fields sentinelWord = ⟨0xF#4, .r3, .r3, .r3, 0xFF#8⟩ := by decide

theorem sentinelWord_low_six : sentinelWord.extractLsb' 0 6 = 0x3F#6 := by decide

theorem sentinelWord_low_twelve : sentinelWord.extractLsb' 0 12 = 0xFFF#12 := by decide

/-- The one instruction of a mnemonic with all-ones operands is the one read off the sentinel's bits. -/
theorem operandsAllOnes_iff {i : Instr} {k : Mnemonic} (hk : i.mnemonic? = some k) :
    i.operandsAllOnes = true ↔ i = instrOfFields k sentinelWord := by
  cases i with
  | sentinel => cases hk
  | add | addi | or | sub | beq | lw | sw | j =>
    cases hk
    simp [Instr.operandsAllOnes, instrOfFields, fields_sentinelWord, sentinelWord_low_six, sentinelWord_low_twelve, and_assoc]

theorem encodeWith_eq_sentinelWord_iff (m : OpcodeMap) {i : Instr} {k : Mnemonic} (hk : i.mnemonic? = some k) :
    encodeWith m i = sentinelWord ↔ m.number k = 0xF#4 ∧ i.operandsAllOnes = true := by
  rw [operandsAllOnes_iff hk]
  constructor
  · intro h
    refine ⟨?_, ?_⟩
    · rw [← fields_encodeWith_opcode m hk, h, fields_sentinelWord]
    · rw [← h, instrOfFields_encodeWith m hk]
  · rintro ⟨hnumber, rfl⟩
    exact encodeWith_instrOfFields hnumber

/-- An instruction with a mnemonic is well formed exactly when its word is not the sentinel (R60). -/
theorem wellFormed_iff (m : OpcodeMap) {i : Instr} {k : Mnemonic} (hk : i.mnemonic? = some k) :
    i.wellFormed m = true ↔ encodeWith m i ≠ sentinelWord := by
  rw [Ne, encodeWith_eq_sentinelWord_iff m hk]
  simp [Instr.wellFormed, hk, imp_iff_not_or]

/-! ### Decode and encode are inverse to each other -/

/-- A word that an instruction encodes to decodes to it, unless it is the sentinel (R58, R60). -/
theorem decodeWith_encodeWith {m : OpcodeMap} (hm : m.valid = true) {i : Instr} (hw : encodeWith m i ≠ sentinelWord) :
    decodeWith m (encodeWith m i) = .ok i := by
  cases hk : i.mnemonic? with
  | none =>
    cases i with
    | sentinel => exact absurd rfl hw
    | add | addi | or | sub | beq | lw | sw | j => cases hk
  | some k =>
    have hrow : m.lookup (fields (encodeWith m i)).opcode = some k := by
      rw [fields_encodeWith_opcode m hk, OpcodeMap.lookup_number hm]
    rw [decodeWith_of_lookup_eq_some hw hrow, instrOfFields_encodeWith m hk]

/-- Settles O1: the word of an instruction with a mnemonic has that mnemonic's opcode, which a valid map looks up, and holds
the operands; well-formedness keeps it off the sentinel. -/
theorem decodeOfEncodeIsTheInstruction : Obligations.DecodeOfEncodeIsTheInstruction := by
  intro m i hm hi
  cases i with
  | sentinel => exact decodeWith_sentinelWord m
  | add | addi | or | sub | beq | lw | sw | j => exact decodeWith_encodeWith hm ((wellFormed_iff m rfl).mp hi)

/-- Settles O2: a word that decodes is the sentinel, or has a mnemonic's number as its opcode; then the fields put it together
again, and it is well formed because it is not the sentinel. -/
theorem encodeOfDecodeIsTheWord : Obligations.EncodeOfDecodeIsTheWord := by
  intro m w i h
  by_cases hw : w = sentinelWord
  · subst hw
    cases h
    exact ⟨rfl, rfl⟩
  · obtain ⟨k, hrow, rfl⟩ := exists_lookup_of_decodeWith_eq_ok hw h
    have hword : encodeWith m (instrOfFields k w) = w := encodeWith_instrOfFields (OpcodeMap.number_of_lookup hrow)
    refine ⟨hword, (wellFormed_iff m (instrOfFields_mnemonic? k w)).mpr ?_⟩
    rwa [hword]

/-! ### The ignored bits -/

theorem Reg.eq_of_toBits_toNat_eq {r r' : Reg} (h : r.toBits.toNat = r'.toBits.toNat) : r = r' := by
  rw [← Reg.ofBits_toBits r, ← Reg.ofBits_toBits r', BitVec.eq_of_toNat_eq h]

/-- The register fields stand above the low six bits (R51). -/
theorem fields_regs_eq_of_div_eq {w v : Word} (h : w.toNat / 64 = v.toNat / 64) :
    (fields w).rs = (fields v).rs ∧ (fields w).rt = (fields v).rt ∧ (fields w).rd = (fields v).rd := by
  refine ⟨Reg.eq_of_toBits_toNat_eq ?_, Reg.eq_of_toBits_toNat_eq ?_, Reg.eq_of_toBits_toNat_eq ?_⟩
  · rw [Machine.fields_rs_toNat, Machine.fields_rs_toNat]; omega
  · rw [Machine.fields_rt_toNat, Machine.fields_rt_toNat]; omega
  · rw [Machine.fields_rd_toNat, Machine.fields_rd_toNat, h]

/-- Words that agree above the ignored bits have the same opcode. -/
theorem div_eq_of_div_ignoredLowBits_eq {k : Mnemonic} {a b : Nat}
    (h : a / 2 ^ Machine.ignoredLowBits k = b / 2 ^ Machine.ignoredLowBits k) : a / 4096 = b / 4096 := by
  cases k <;> simp only [Machine.ignoredLowBits] at h <;> omega

/-- No meaning reads a bit its instruction ignores (R61). -/
theorem exec_instrOfFields_congr {k : Mnemonic} {w v : Word}
    (h : w.toNat / 2 ^ Machine.ignoredLowBits k = v.toNat / 2 ^ Machine.ignoredLowBits k) (s : Machine.State) :
    Machine.exec (instrOfFields k w) s = Machine.exec (instrOfFields k v) s := by
  cases k with
  | add | or | sub =>
    obtain ⟨hrs, hrt, hrd⟩ := fields_regs_eq_of_div_eq h
    simp only [instrOfFields, Machine.exec, hrs, hrt, hrd]
  | addi | lw | sw =>
    have hwv : w = v := BitVec.eq_of_toNat_eq (by simpa [Machine.ignoredLowBits] using h)
    rw [hwv]
  | beq | j => rfl

/-- Settles O7: both words decode under the same mnemonic, and they differ only in bits its meaning does not read. -/
theorem ignoredBitsHaveNoEffect : Obligations.IgnoredBitsHaveNoEffect := fun _ w v k hm hw hv hk h =>
  ⟨instrOfFields k w, instrOfFields k v, decodeWith_of_number hm hw hk,
    decodeWith_of_number hm hv (hk.trans (div_eq_of_div_ignoredLowBits_eq h)), exec_instrOfFields_congr h⟩

/-! ### The default map -/

/-- The default map assigns the numbers below 8 and no other (92_eei_decisions.md D1). -/
theorem defaultOpcodeMap_lookup_eq_none_iff (o : BitVec 4) : defaultOpcodeMap.lookup o = none ↔ 8 ≤ o.toNat := by
  revert o; decide

/-- Settles O6: the opcodes without a row are those from 8 on, and of their words only 0xFFFF is the sentinel. -/
theorem undefinedWordsOfTheDefaultMap : Obligations.UndefinedWordsOfTheDefaultMap := by
  intro w
  have hlt : w.toNat < 65536 := w.isLt
  have hsentinel : w ≠ sentinelWord ↔ w.toNat ≠ 65535 := BitVec.toNat_inj.symm.not
  rw [decode, decodeWith_eq_error_iff, defaultOpcodeMap_lookup_eq_none_iff, fields_opcode_toNat, hsentinel]
  omega

/-- Settles O3: each word is a closed one, which the decoder evaluates. -/
theorem specWordsDecodeAsWritten : Obligations.SpecWordsDecodeAsWritten := by
  unfold Obligations.SpecWordsDecodeAsWritten
  decide

end Sys2Proof

/-! PROOFS. Family other: the control table's facts (R77), the ALU's ADD, OR and zero flag (R81, R83, R84), the port equations
(R110, R112), and the engine against the instructions' own meanings. -/

namespace Sys2Proof

/-- A valid map gives no number twice (R56). -/
theorem OpcodeMap.number_eq_number_iff {m : OpcodeMap} (hm : m.valid = true) (k k' : Mnemonic) :
    m.number k = m.number k' ↔ k = k' := by
  refine ⟨fun h => ?_, congrArg m.number⟩
  have hrow : some k = some k' := by rw [← OpcodeMap.lookup_number hm k, h, OpcodeMap.lookup_number hm]
  exact Option.some.inj hrow

end Sys2Proof

namespace Sys2Proof.Machine

/-! ### The control table, row by row (R76, R77) -/

theorem controlRow_memToReg (k : Mnemonic) : (controlRow k).memToReg = (controlRow k).memRead := by
  cases k <;> rfl

theorem controlRow_memRead_iff (k : Mnemonic) : (controlRow k).memRead = true ↔ k = .lw := by
  cases k <;> decide

theorem controlRow_regWrite_of_memWrite (k : Mnemonic) :
    (controlRow k).memWrite = true → (controlRow k).regWrite = false := by
  cases k <;> decide

theorem controlRow_of_regDst (k : Mnemonic) :
    (controlRow k).regDst = true → (controlRow k).aluSrc = false ∧ (controlRow k).memToReg = false := by
  cases k <;> decide

theorem controlRow_regWrite_of_memRead (k : Mnemonic) :
    (controlRow k).memRead = true → (controlRow k).regWrite = true := by
  cases k <;> decide

theorem controlRow_not_branch_and_jump (k : Mnemonic) :
    ¬ ((controlRow k).branch = true ∧ (controlRow k).jump = true) := by
  cases k <;> decide

theorem controlRow_of_branch_or_jump (k : Mnemonic) : (controlRow k).branch = true ∨ (controlRow k).jump = true →
    (controlRow k).regWrite = false ∧ (controlRow k).memRead = false ∧ (controlRow k).memWrite = false := by
  cases k <;> decide

theorem controlRow_aluOp_eq_none_iff (k : Mnemonic) : (controlRow k).aluOp = .none ↔ k = .j := by
  cases k <;> decide

theorem controlRow_of_aluOp_eq_none (k : Mnemonic) : (controlRow k).aluOp = .none →
    (controlRow k).regWrite = false ∧ (controlRow k).memRead = false ∧ (controlRow k).memWrite = false := by
  cases k <;> decide

theorem controlRow_regWrite_iff (k : Mnemonic) :
    (controlRow k).regWrite = true ↔ k = .add ∨ k = .addi ∨ k = .or ∨ k = .sub ∨ k = .lw := by
  cases k <;> decide

/-- A bundle of the Control Unit is the row of the mnemonic whose number the opcode is. -/
theorem exists_controlRow_of_controlUnit_eq_some {m : OpcodeMap} {o : BitVec 4} {c : ControlBundle}
    (h : controlUnit m o = some c) : ∃ k, m.number k = o ∧ c = controlRow k := by
  obtain ⟨k, hk, rfl⟩ := Option.map_eq_some_iff.mp h
  exact ⟨k, OpcodeMap.number_of_lookup hk, rfl⟩

/-- Settles O9: every bundle is a row of the table, and in a valid map an opcode is a mnemonic's number for that mnemonic
alone, so that each fact is one of the table's rows. -/
theorem controlTableFacts : Obligations.ControlTableFacts := by
  intro m o c hm h
  obtain ⟨k, rfl, rfl⟩ := exists_controlRow_of_controlUnit_eq_some h
  have hnumber (k' : Mnemonic) : k = k' ↔ m.number k = m.number k' := (OpcodeMap.number_eq_number_iff hm k k').symm
  exact ⟨controlRow_not_read_and_write k,
    ⟨controlRow_memToReg k, (controlRow_memRead_iff k).trans (hnumber .lw)⟩,
    controlRow_regWrite_of_memWrite k, controlRow_of_regDst k, controlRow_regWrite_of_memRead k,
    controlRow_not_branch_and_jump k, controlRow_of_branch_or_jump k,
    ⟨(controlRow_aluOp_eq_none_iff k).trans (hnumber .j), controlRow_of_aluOp_eq_none k⟩,
    (controlRow_regWrite_iff k).trans <| or_congr (hnumber .add) <| or_congr (hnumber .addi) <| or_congr (hnumber .or) <|
      or_congr (hnumber .sub) (hnumber .lw)⟩

/-! ### The ALU's ADD, OR and zero flag -/

theorem alu_add_zero_operand (a : Byte) : alu .add a 0#8 = ⟨a, decide (a = 0#8), false⟩ := by
  simp [alu, addResult, zeroFlag, addCarry]

/-- Settles O10: the wrapped sum is below the first operand exactly when the true sum does not fit; the corner cases are
closed instances, but for the operand 0, which changes nothing. -/
theorem aluAddWrapsAndCarries : Obligations.AluAddWrapsAndCarries := by
  refine ⟨fun a b => ⟨BitVec.toNat_add a b, ?_, alu_add_carryOut_eq_true_iff a b⟩, by decide, by decide, by decide, by decide,
    alu_add_zero_operand⟩
  rw [alu_add_carryOut, decide_eq_true_iff, alu_add_result]

theorem alu_or_result_getLsbD (a b : Byte) (i : Nat) :
    (alu .or a b).result.getLsbD i = (a.getLsbD i || b.getLsbD i) := by
  rw [alu_or_result, BitVec.getLsbD_or]

theorem alu_or_zero_eq_true_iff (a b : Byte) : (alu .or a b).zero = true ↔ a = 0#8 ∧ b = 0#8 :=
  (zeroFlag_eq_true _).trans BitVec.or_eq_zero_iff

/-- Settles O12: the result is the bitwise OR, which is 0 for two zeros alone. -/
theorem aluOrIsBitwise : Obligations.AluOrIsBitwise := fun a b =>
  ⟨fun i _ => alu_or_result_getLsbD a b i, alu_or_carryOut a b, alu_or_zero_eq_true_iff a b⟩

/-- Two operands have the difference 0 exactly when they are equal (R84). -/
theorem alu_sub_zero_eq_true_iff (a b : Byte) : (alu .sub a b).zero = true ↔ a = b :=
  (zeroFlag_eq_true _).trans sub_eq_zero

theorem alu_zero_eq_true_iff {op : AluOp} (hop : op ≠ .none) (a b : Byte) :
    (alu op a b).zero = true ↔ (alu op a b).result = 0#8 := by
  cases op with
  | add | sub | or => exact zeroFlag_eq_true _
  | none => exact absurd rfl hop

/-- Settles O13: each of the three operations takes the flag from its wrapped result. -/
theorem zeroFlagFollowsTheResult : Obligations.ZeroFlagFollowsTheResult := by
  refine ⟨fun op a b hop => ?_, by decide, alu_sub_zero_eq_true_iff⟩
  have hne : op ≠ .none := by rcases hop with rfl | rfl | rfl <;> decide
  rw [alu_zero_eq_true_iff hne, ← BitVec.toNat_inj, BitVec.toNat_ofNat, Nat.zero_mod]

/-! ### The port equations (R110, R112) -/

/-- With `valid` at 1 the write enables and the data mux take the arbiter's three branches. -/
theorem datapathPorts_valid (fill : Byte) (c : ControlBundle) (f : Fields) (d : Data) :
    datapathPorts fill true c f d = datapath fill c f d := by
  cases hread : c.memRead with
  | true =>
    simp [datapathPorts, datapath, memoryStage_of_read hread, writeBackStage, regWriteEnable, memWriteEnable,
      writeBackInhibit, writeBackFromMem, hread]
  | false =>
    cases hwrite : c.memWrite with
    | true =>
      simp [datapathPorts, datapath, memoryStage_of_store hread hwrite, regWriteEnable, memWriteEnable,
        writeBackInhibit, hread, hwrite]
    | false =>
      simp [datapathPorts, datapath, memoryStage_of_neither hread hwrite, writeBackStage, regWriteEnable, memWriteEnable,
        writeBackInhibit, writeBackFromMem, hread, hwrite]

/-- Settles O16: `valid` at 0 gates both write enables; at 1 the ports do what the arbiter does in each of its branches. -/
theorem portEquationsAgree : Obligations.PortEquationsAgree := by
  intro fill valid c f d
  cases valid with
  | false => exact datapathPorts_invalid fill c f d
  | true => exact datapathPorts_valid fill c f d

/-! ### The engine against the instructions -/

/-- Settles O17: a word that decodes has a row, and its instruction does to the data what the datapath does under that row;
an undefined word has none. -/
theorem engineAgreesWithTheInstructions : Obligations.EngineAgreesWithTheInstructions := by
  refine fun w s _ hw => ⟨fun i hi => ?_, fun e he => ?_⟩
  · obtain ⟨k, hrow, rfl⟩ := exists_lookup_of_decodeWith_eq_ok hw hi
    obtain ⟨t, hexec, hdata⟩ := exec_instrOfFields_data k w s
    refine ⟨t, hexec, ?_⟩
    rw [execute_of_controlUnit_eq_some (controlUnit_of_lookup_eq_some hrow), hdata]
  · obtain ⟨-, hrow⟩ := (decodeWith_eq_error_iff _ w).mp ⟨e, he⟩
    exact execute_of_controlUnit_eq_none (controlUnit_eq_none_iff.mpr hrow) s.data

end Sys2Proof.Machine

/-! PROOFS. Family other: OR, SUB, BEQ and J (R131, R132, R160, R162). -/

namespace Sys2Proof.Machine

/-! ### The instructions as equations -/

theorem exec_or (rs rt rd : Reg) (g : BitVec 6) (s : State) :
    exec (.or rs rt rd g) s = .next (s.writeReg rd (alu .or (s.readReg rs) (s.readReg rt)).result).advance := rfl

theorem exec_sub (rs rt rd : Reg) (g : BitVec 6) (s : State) :
    exec (.sub rs rt rd g) s = .next (s.writeReg rd (alu .sub (s.readReg rs) (s.readReg rt)).result).advance := rfl

theorem exec_beq (rs rt : Reg) (g : BitVec 8) (s : State) : exec (.beq rs rt g) s = .next s.advance := rfl

theorem exec_j (g : BitVec 12) (s : State) : exec (.j g) s = .next s.advance := rfl

/-! ### The frame of a bare advance -/

theorem State.goesOn_advance {s : State} (hpc : s.pc.val < 256) : GoesOn s s.advance :=
  ⟨Pc.next_val_of_lt hpc, rfl⟩

/-- An instruction that only advances changes no register, no data cell and no word. -/
theorem advance_inert {s : State} (hpc : s.pc.val < 256) :
    SameRegs s s.advance ∧ SameData s s.advance ∧ SameProgram s s.advance ∧ GoesOn s s.advance :=
  ⟨s.readReg_advance, s.memRead_advance, s.instrAt_advance, State.goesOn_advance hpc⟩

/-! ### R131 and R132 -/

/-- Settles O21: OR is one register write of the ALU's bitwise OR before `pc` advances; its word is the encoder's. -/
theorem orWritesTheBitwiseOr : Obligations.OrWritesTheBitwiseOr := by
  refine ⟨fun rs rt rd g s hpc => ⟨_, _, exec_or rs rt rd g s, s.writesOnly_writeReg_advance _ _,
      fun i _ => alu_or_result_getLsbD _ _ i, s.sameData_writeReg_advance _ _, s.sameProgram_writeReg_advance _ _,
      State.goesOn_writeReg_advance hpc _ _⟩, fun m rs rt rd g hm hw => ?_, rfl,
    fun rs rt s => ⟨alu_or_zero_eq_true_iff _ _, alu_or_carryOut _ _⟩⟩
  rw [append_eq_packWord] at hw ⊢
  exact decodeWith_encodeWith hm (i := .or rs rt rd g) hw

theorem alu_sub_result_eq_ofNat (a b : Byte) :
    (alu .sub a b).result = BitVec.ofNat 8 ((a.toNat + 256 - b.toNat) % 256) := by
  rw [← alu_sub_result_toNat, BitVec.ofNat_toNat, BitVec.setWidth_eq]

/-- Settles O22: SUB is one register write of the ALU's wrapped difference before `pc` advances, which is 0 for equal
sources; its word is the encoder's. -/
theorem subWritesTheWrappedDifference : Obligations.SubWritesTheWrappedDifference := by
  refine ⟨fun rs rt rd g s hpc => ⟨_, exec_sub rs rt rd g s, ?_, fun hsame => ?_, s.sameData_writeReg_advance _ _,
      s.sameProgram_writeReg_advance _ _, State.goesOn_writeReg_advance hpc _ _⟩, fun m rs rt rd g hm hw => ?_, rfl,
    fun rs rt s => ⟨alu_sub_zero_eq_true_iff _ _, alu_sub_carryOut_eq_true_iff _ _⟩⟩
  · rw [← alu_sub_result_eq_ofNat]
    exact s.writesOnly_writeReg_advance _ _
  · rw [s.writesOnly_writeReg_advance, if_pos rfl, hsame, alu_sub_result, BitVec.sub_self]
  · rw [append_eq_packWord] at hw ⊢
    exact decodeWith_encodeWith hm (i := .sub rs rt rd g) hw

/-! ### R160 and R162 -/

/-- Settles O26: BEQ is a bare advance; its word is the encoder's, and its flags are those of the ALU's subtraction. -/
theorem beqOnlyAdvances : Obligations.BeqOnlyAdvances :=
  ⟨fun rs rt g s hpc => ⟨_, exec_beq rs rt g s, advance_inert hpc⟩,
    fun _ rs rt g hm hw => decodeWith_encodeWith hm (i := .beq rs rt g) hw, rfl,
    fun _ _ _ => ⟨alu_sub_zero_eq_true_iff _ _, alu_sub_carryOut_eq_true_iff _ _⟩⟩

/-- Settles O27: J is a bare advance, and its word is the encoder's. -/
theorem jOnlyAdvances : Obligations.JOnlyAdvances :=
  ⟨fun g s hpc => ⟨_, exec_j g s, advance_inert hpc⟩,
    fun _ g hm hw => decodeWith_encodeWith hm (i := .j g) hw, rfl⟩

end Sys2Proof.Machine

/-! PROOFS. Family other: the step of a RUNNING machine, by its event (R114 to R118, R164, R177, R179), and what a whole run
does (R118, R119). -/

namespace Sys2Proof.Machine

/-! ### A step, one equation per status and per event (R177) -/

/-- The run is over exactly when it was launched and does not go on (R119). -/
theorem Status.terminal_iff (st : Status) : st.terminal = true ↔ st ≠ .load ∧ st ≠ .running := by
  cases st <;> decide

theorem step_of_load {s : State} (hs : s.status = .load) : step s = .next s.launch := by
  have hevent : s.event = .launch := by simp only [State.event, hs]
  rw [step_eq, hevent]
  rfl

theorem step_of_terminal {s : State} (hs : s.Terminal) : step s = .fault (.runOver s.status) := by
  have hevent : s.event = .over := by
    unfold State.event
    cases h : s.status with
    | load | running => rw [State.Terminal, h] at hs; cases hs
    | done | errUndefinedOpcode | errProgramOverrun => rfl
  rw [step_eq, hevent]
  rfl

theorem step_of_overrun {s : State} (hs : s.status = .running) (hpc : s.pc.val = 256) :
    step s = .next (s.takeError .programOverrun) := by
  have hevent : s.event = .overrun := by simp only [State.event, hs, if_pos hpc]
  rw [step_eq, hevent]
  rfl

theorem step_of_decode_eq_ok {s : State} {i : Instr} (hs : s.status = .running) (hpc : s.pc.val < 256)
    (h : decodeWith s.params.opcodeMap (s.instrAt s.pc.val) = .ok i) : step s = exec i s := by
  rw [step_eq, State.event_of_decode_eq_ok hs hpc h]
  rfl

theorem step_of_decode_eq_error {s : State} {e : DecodeError} (hs : s.status = .running) (hpc : s.pc.val < 256)
    (h : decodeWith s.params.opcodeMap (s.instrAt s.pc.val) = .error e) :
    step s = .next (s.takeError .undefinedOpcode) := by
  rw [step_eq, State.event_of_decode_eq_error hs hpc h]
  rfl

theorem exec_sentinel (s : State) : exec .sentinel s = .next s.finish := rfl

theorem step_of_sentinel {s : State} (hs : s.status = .running) (hpc : s.pc.val < 256)
    (hw : s.instrAt s.pc.val = sentinelWord) : step s = .next s.finish := by
  rw [step_of_decode_eq_ok (i := .sentinel) hs hpc, exec_sentinel]
  rw [hw, decodeWith_sentinelWord]

/-! ### The two things a RUNNING step can do -/

/-- The step executed the word at `pc` and the run goes on behind it (R117). -/
structure Advances (s t : State) : Prop where
  pc_lt : s.pc.val < 256
  word_ne : s.instrAt s.pc.val ≠ sentinelWord
  execute_eq : execute s.params (s.instrAt s.pc.val) s.data = .ok t.data
  pc_eq : t.pc.val = s.pc.val + 1
  status_eq : t.status = .running

/-- The step ended the run where it stood, with a status that says why (R116, R117, R171). -/
structure Stops (s t : State) : Prop where
  data_eq : t.data = s.data
  pc_eq : t.pc = s.pc
  terminal : t.Terminal
  consistent : t.StopConsistent

/-- An instruction other than the sentinel advances `pc` and keeps the status. -/
theorem exec_goesOn {i : Instr} {s t : State} (hi : i ≠ .sentinel) (hpc : s.pc.val < 256) (h : exec i s = .next t) :
    GoesOn s t := by
  rcases exec_cases i s with ⟨d, v, hexec, -⟩ | ⟨rs, rt, imm, -, hexec⟩ | ⟨hexec, -⟩ | ⟨hsentinel, -⟩
  · cases hexec.symm.trans h
    exact State.goesOn_writeReg_advance hpc _ _
  · cases hexec.symm.trans h
    exact State.goesOn_memWrite_advance hpc _ _
  · cases hexec.symm.trans h
    exact State.goesOn_advance hpc
  · exact absurd hsentinel hi

theorem instrOfFields_ne_sentinel (k : Mnemonic) (w : Word) : instrOfFields k w ≠ .sentinel := fun h => by
  have hnone := instrOfFields_mnemonic? k w
  rw [h] at hnone
  cases hnone

/-- At a word with a row the step executes it, as the pure `execute` says (R100, R117). -/
theorem step_advances {s : State} {k : Mnemonic} (hs : s.status = .running) (hpc : s.pc.val < 256)
    (hw : s.instrAt s.pc.val ≠ sentinelWord)
    (hrow : s.params.opcodeMap.lookup (fields (s.instrAt s.pc.val)).opcode = some k) :
    ∃ t, step s = .next t ∧ Advances s t := by
  obtain ⟨t, hexec, hdata⟩ := exec_instrOfFields_data k (s.instrAt s.pc.val) s
  obtain ⟨hnext, hstatus⟩ := exec_goesOn (instrOfFields_ne_sentinel k _) hpc hexec
  refine ⟨t, (step_of_lookup_eq_some hs hpc hw hrow).trans hexec, hpc, hw, ?_, hnext, hstatus.trans hs⟩
  rw [execute_of_controlUnit_eq_some (controlUnit_of_lookup_eq_some hrow), hdata]

/-- Everything a RUNNING step does: it answers a next state, which went on by one word or stopped. -/
theorem step_of_running {s : State} (hs : s.status = .running) : ∃ t, step s = .next t ∧ (Advances s t ∨ Stops s t) := by
  by_cases h256 : s.pc.val = 256
  · exact ⟨_, step_of_overrun hs h256, .inr ⟨rfl, rfl, rfl, h256⟩⟩
  have hpc : s.pc.val < 256 := Nat.lt_of_le_of_ne (Pc.val_le s.pc) h256
  by_cases hw : s.instrAt s.pc.val = sentinelWord
  · exact ⟨_, step_of_sentinel hs hpc hw, .inr ⟨rfl, rfl, rfl, hpc, hw⟩⟩
  cases hrow : s.params.opcodeMap.lookup (fields (s.instrAt s.pc.val)).opcode with
  | some k =>
    obtain ⟨t, hstep, hadvances⟩ := step_advances hs hpc hw hrow
    exact ⟨t, hstep, .inl hadvances⟩
  | none =>
    exact ⟨_, step_of_lookup_eq_none hs hpc hw hrow,
      .inr ⟨rfl, rfl, rfl, hpc, _, decodeWith_of_lookup_eq_none hw hrow⟩⟩

theorem advances_or_stops {s t : State} (hs : s.status = .running) (h : step s = .next t) : Advances s t ∨ Stops s t := by
  obtain ⟨u, hstep, hcases⟩ := step_of_running hs
  cases hstep.symm.trans h
  exact hcases

/-! ### The induction over `run()`'s loop -/

theorem runLoop_of_running {s t : State} (k : Nat) (hs : s.status = .running) (h : step s = .next t) :
    runLoop (k + 1) s = runLoop k t := by
  simp only [runLoop, if_pos hs, h]

theorem runLoop_of_ne_running {s : State} (k : Nat) (hs : s.status ≠ .running) : runLoop k s = s := by
  cases k with
  | zero => rfl
  | succ k => simp only [runLoop, if_neg hs]

/-- The induction over a run, once: what holds between the last step's ends, and is carried back over a step that goes on, holds
between a RUNNING state and where the loop leaves it. The fuel left for the words up to 256 is enough. -/
theorem runLoop_induction {P : State → State → Prop}
    (hstop : ∀ s t, s.status = .running → step s = .next t → Stops s t → P s t)
    (hadvance : ∀ s u t, s.status = .running → step s = .next u → Advances s u → P u t → P s t) :
    ∀ (k : Nat) (s : State), s.status = .running → 257 ≤ s.pc.val + k → P s (runLoop k s) := by
  intro k
  induction k with
  | zero =>
    intro s _ hk
    have hpc := Pc.val_le s.pc
    omega
  | succ k ih =>
    intro s hs hk
    obtain ⟨u, hstep, hu | hu⟩ := step_of_running hs
    · have hpc := hu.pc_eq
      rw [runLoop_of_running k hs hstep]
      exact hadvance s u _ hs hstep hu (ih u hu.status_eq (by omega))
    · rw [runLoop_of_running k hs hstep, runLoop_of_ne_running k ((Status.terminal_iff _).mp hu.terminal).2]
      exact hstop s u hs hstep hu

/-- The induction for `run()`, which launches at index 0 and has 257 steps (R118, R124). -/
theorem runCall_induction {P : State → State → Prop}
    (hstop : ∀ s t, s.status = .running → step s = .next t → Stops s t → P s t)
    (hadvance : ∀ s u t, s.status = .running → step s = .next u → Advances s u → P u t → P s t) (s : State) :
    P s.launch s.runCall :=
  runLoop_induction hstop hadvance 257 s.launch rfl (Nat.le_add_left _ _)

/-! ### What a run does -/

/-- One step in front of `k` steps. -/
theorem run_of_step {s u t : State} {k : Nat} (h : step s = .next u) (hk : Host.Core.run core k u = .next t) :
    Host.Core.run core (k + 1) s = .next t := by
  have hcore : core.step s = .next u := h
  simp only [Host.Core.run, hcore]
  exact hk

/-- The machine's own steps lead from `s` to `t`, no more of them than there are indices from `pc` to 256. -/
def ReachesWithinBound (s t : State) : Prop := ∃ k, k ≤ 257 - s.pc.val ∧ Host.Core.run core k s = .next t

theorem reachesWithinBound_of_step {s t : State} (h : step s = .next t) : ReachesWithinBound s t := by
  have hpc := Pc.val_le s.pc
  exact ⟨1, by omega, run_of_step h rfl⟩

theorem Advances.reachesWithinBound {s u t : State} (hu : Advances s u) (h : step s = .next u)
    (ht : ReachesWithinBound u t) : ReachesWithinBound s t := by
  obtain ⟨k, hk, hrun⟩ := ht
  have hpc := hu.pc_eq
  have hlt := hu.pc_lt
  exact ⟨k + 1, by omega, run_of_step h hrun⟩

/-- The loop from a RUNNING state is a number of the machine's steps, and the run is over where it ends. -/
theorem runLoop_reaches {s : State} (hs : s.status = .running) :
    ReachesWithinBound s (runLoop 257 s) ∧ (runLoop 257 s).Terminal ∧ (runLoop 257 s).StopConsistent :=
  runLoop_induction (P := fun s t => ReachesWithinBound s t ∧ t.Terminal ∧ t.StopConsistent)
    (fun _ _ _ hstep ht => ⟨reachesWithinBound_of_step hstep, ht.terminal, ht.consistent⟩)
    (fun _ _ _ _ hstep hu ⟨hreach, hover⟩ => ⟨hu.reachesWithinBound hstep hreach, hover⟩)
    257 s hs (Nat.le_add_left _ _)

theorem runCall_reaches (s : State) :
    ReachesWithinBound s.launch s.runCall ∧ s.runCall.Terminal ∧ s.runCall.StopConsistent :=
  runLoop_reaches (s := s.launch) rfl

/-- No run changes the parameters or the program. -/
theorem run_toSetup {k : Nat} {s t : State} (h : Host.Core.run core k s = .next t) : t.toSetup = s.toSetup :=
  run_induction (P := fun u => u.toSetup = s.toSetup) (fun _ _ hu hstep => (step_toSetup hstep).trans hu) k s t rfl h

theorem runCall_toSetup (s : State) : s.runCall.toSetup = s.toSetup := by
  obtain ⟨⟨k, -, hrun⟩, -⟩ := runCall_reaches s
  have hlaunch : s.runCall.toSetup = s.launch.toSetup := run_toSetup hrun
  exact hlaunch

/-! ### A run as a straight-line program (R119) -/

/-- From `s` to `t` exactly the words at the indices between their `pc`s were executed, once each and in order. -/
def StraightLine (s t : State) : Prop :=
  s.pc.val ≤ t.pc.val ∧
  executeAll s.params ((List.range' s.pc.val (t.pc.val - s.pc.val)).map s.instrAt) s.data = .ok t.data ∧
  ∀ i, s.pc.val ≤ i → i < t.pc.val → s.instrAt i ≠ sentinelWord

theorem Stops.straightLine {s t : State} (h : Stops s t) : StraightLine s t := by
  refine ⟨by rw [h.pc_eq], ?_, fun i hi hlt => ?_⟩
  · rw [h.pc_eq, Nat.sub_self, h.data_eq]
    rfl
  · rw [h.pc_eq] at hlt
    exact absurd hlt (Nat.not_lt.mpr hi)

/-- One executed word in front of a straight line. -/
theorem Advances.straightLine {s u t : State} (hu : Advances s u) (h : step s = .next u) (ht : StraightLine u t) :
    StraightLine s t := by
  obtain ⟨hle, hall, hwords⟩ := ht
  have hsetup : u.toSetup = s.toSetup := step_toSetup h
  have hparams : u.params = s.params := congrArg Setup.params hsetup
  have hinstr : u.instrAt = s.instrAt := funext (State.instrAt_congr hsetup)
  rw [hu.pc_eq] at hle
  rw [hu.pc_eq, hparams, hinstr] at hall
  rw [hu.pc_eq, hinstr] at hwords
  refine ⟨by omega, ?_, fun i hi hlt => ?_⟩
  · have hlength : t.pc.val - s.pc.val = t.pc.val - (s.pc.val + 1) + 1 := by omega
    rw [hlength, List.range'_succ, List.map_cons]
    simp only [executeAll, hu.execute_eq]
    exact hall
  · rcases Nat.eq_or_lt_of_le hi with rfl | hi
    · exact hu.word_ne
    · exact hwords i hi hlt

theorem runCall_straightLine (s : State) : StraightLine s.launch s.runCall :=
  runCall_induction (fun _ _ _ _ ht => ht.straightLine) (fun _ _ _ _ hstep hu ht => hu.straightLine hstep ht) s

/-- Settles O40: a straight line from index 0 is what the loop does, by induction over its steps; it ends where the run
stopped. -/
theorem runIsTheStraightLineProgram : Obligations.RunIsTheStraightLineProgram := by
  intro s _
  obtain ⟨-, hterminal, hconsistent⟩ := runCall_reaches s
  obtain ⟨-, hall, hwords⟩ := runCall_straightLine s
  refine ⟨hterminal, hconsistent, congrArg Setup.imem (runCall_toSetup s), ?_, fun i hi => hwords i (Nat.zero_le i) hi⟩
  rw [List.range_eq_range']
  exact hall

/-- Settles O39: a RUNNING step goes on to the next of at most 257 indices or ends the run. -/
theorem everyRunEnds : Obligations.EveryRunEnds := by
  intro s hs
  obtain ⟨⟨k, hk, hrun⟩, hterminal, -⟩ := runLoop_reaches hs
  exact ⟨k, runLoop 257 s, hk, hrun, hterminal⟩

/-- Settles O54: the launch, and then the steps of the loop. -/
theorem stepsFromLoadReachTheRunCall : Obligations.StepsFromLoadReachTheRunCall := by
  intro s hs
  obtain ⟨⟨k, hk, hrun⟩, hterminal, -⟩ := runCall_reaches s
  exact ⟨k + 1, by omega, run_of_step (step_of_load hs) hrun, hterminal⟩

end Sys2Proof.Machine

/-! PROOFS. Family other: the events of a step in their order (R177), the sentinel (R164), the errors (R179), the placed word,
and how `pc` moves (R15 to R17). -/

namespace Sys2Proof.Machine

/-! ### A step, by its event -/

/-- Settles O34: the event of such a state is the decoded instruction, and the machine answers it by `exec`. -/
theorem stepRunsTheDecodedInstruction : Obligations.StepRunsTheDecodedInstruction := fun _ _ hs hpc hi =>
  step_of_decode_eq_ok hs hpc hi

/-- Settles O36: the four events, each by the equation of its step. -/
theorem stepEventsInOrder : Obligations.StepEventsInOrder := by
  refine fun s hs => ⟨step_of_overrun hs, step_of_sentinel hs,
    fun hpc hw hrow => step_of_lookup_eq_none hs hpc hw (controlUnit_eq_none_iff.mp hrow), fun hpc hw hrow => ?_⟩
  obtain ⟨k, hk⟩ := Option.ne_none_iff_exists'.mp (mt controlUnit_eq_none_iff.mpr hrow)
  obtain ⟨t, hstep, ht⟩ := step_advances hs hpc hw hk
  exact ⟨t, hstep, ht.status_eq, ht.pc_eq⟩

/-- Settles O37: a RUNNING step goes on or stops, a finished run has none, and in LOAD the step is the launch. -/
theorem runningAlwaysSteps : Obligations.RunningAlwaysSteps := by
  refine fun s => ⟨fun hs => ?_, step_of_terminal, fun hs => ⟨_, step_of_load hs, rfl, rfl, s.readReg_launch, s.memRead_launch,
    s.instrAt_launch, rfl⟩⟩
  obtain ⟨t, hstep, -⟩ := step_of_running hs
  exact ⟨t, hstep⟩

/-! ### The sentinel and the errors -/

theorem State.finish_terminal (s : State) : s.finish.Terminal := rfl

theorem State.takeError_terminal (s : State) (e : ErrorKind) : (s.takeError e).Terminal := by
  cases e <;> rfl

/-- Only the sentinel's word decodes to it: an instruction read off another word has a mnemonic (R58). -/
theorem decodeWith_eq_sentinel_iff (m : OpcodeMap) (w : Word) : decodeWith m w = .ok .sentinel ↔ w = sentinelWord := by
  constructor
  · intro h
    by_contra hw
    obtain ⟨k, -, hk⟩ := exists_lookup_of_decodeWith_eq_ok hw h
    exact instrOfFields_ne_sentinel k w hk.symm
  · rintro rfl
    exact decodeWith_sentinelWord m

/-- Settles O28: the sentinel's meaning is `finish`, which sets the status alone, and a finished run has no step. -/
theorem sentinelEndsTheRun : Obligations.SentinelEndsTheRun :=
  ⟨fun s => ⟨_, exec_sentinel s, rfl, rfl, s.readReg_finish, s.memRead_finish, s.instrAt_finish, _,
      step_of_terminal s.finish_terminal⟩,
    fun _ hs hpc hw => step_of_sentinel hs hpc hw, decodeWith_eq_sentinel_iff⟩

/-- Settles O41: both errors are taken by the one operation, which sets the status alone, and a finished run has no step. -/
theorem errorsOnlySetTheStatus : Obligations.ErrorsOnlySetTheStatus :=
  ⟨fun s hs hpc ⟨_, he⟩ => ⟨_, step_of_decode_eq_error hs hpc he, rfl, rfl, s.readReg_takeError _, s.memRead_takeError _,
      s.instrAt_takeError _, _, step_of_terminal (s.takeError_terminal _)⟩,
    fun s hs hpc => ⟨_, step_of_overrun hs hpc, rfl, hpc, s.readReg_takeError _, s.memRead_takeError _,
      s.instrAt_takeError _, _, step_of_terminal (s.takeError_terminal _)⟩⟩

/-! ### The placed word (notes/assumptions/16.md) -/

theorem tableWord_toNat (w : Word) : tableWord 16 w.toNat = w := by
  rw [tableWord, Nat.mod_eq_of_lt w.isLt, BitVec.ofNat_toNat, BitVec.setWidth_eq]

theorem State.placeWord_pc_lt (s : State) (w : Word) : (s.placeWord w).pc.val < 256 := by
  have hpc := Pc.val_le s.pc
  unfold State.placeWord
  split
  · exact Nat.zero_lt_succ 255
  · next hne => exact Nat.lt_of_le_of_ne hpc hne

theorem State.instrAt_placeWord_pc (s : State) (w : Word) : (s.placeWord w).instrAt (s.placeWord w).pc.val = w := by
  have hset : (s.placeWord w).instrAt (s.placeWord w).pc.val =
      (s.setInstr (s.placeWord w).pc.val w).instrAt (s.placeWord w).pc.val := rfl
  rw [hset, State.instrAt_setInstr, if_pos rfl]

/-- A placed word that decodes is what the next step runs. -/
theorem step_placeWord {s : State} {w : Word} {i : Instr} (h : decodeWith s.params.opcodeMap w = .ok i) :
    step (s.placeWord w) = exec i (s.placeWord w) := by
  refine step_of_decode_eq_ok rfl (s.placeWord_pc_lt w) ?_
  rw [State.instrAt_placeWord_pc]
  exact h

/-- Settles O35: the encoder's word decodes to the instruction, also where it is placed. -/
theorem placedInstructionRuns : Obligations.PlacedInstructionRuns := by
  intro s i hm hi
  rw [State.withFetchWord, tableWord_toNat]
  exact ⟨step_placeWord (decodeOfEncodeIsTheInstruction _ i hm hi), rfl⟩

/-! ### How `pc` moves -/

/-- A step that is not the launch moves `pc` by at most one, never back, and does not return to LOAD. -/
theorem step_pc_bounds {s t : State} (hs : s.status ≠ .load) (h : step s = .next t) :
    t.status ≠ .load ∧ s.pc.val ≤ t.pc.val ∧ t.pc.val ≤ s.pc.val + 1 := by
  by_cases hrunning : s.status = .running
  · rcases advances_or_stops hrunning h with ht | ht
    · have hpc := ht.pc_eq
      exact ⟨by rw [ht.status_eq]; decide, by omega, by omega⟩
    · rw [ht.pc_eq]
      exact ⟨((Status.terminal_iff _).mp ht.terminal).1, Nat.le_refl _, Nat.le_succ _⟩
  · rw [step_of_terminal ((Status.terminal_iff _).mpr ⟨hs, hrunning⟩)] at h
    cases h

theorem run_pc_bounds (k : Nat) : ∀ s t : State, s.status ≠ .load → Host.Core.run core k s = .next t →
    s.pc.val ≤ t.pc.val ∧ t.pc.val ≤ s.pc.val + k := by
  induction k with
  | zero =>
    intro s t _ h
    cases h
    exact ⟨Nat.le_refl _, Nat.le_refl _⟩
  | succ k ih =>
    intro s t hs h
    obtain ⟨u, hstep, hrun⟩ := run_succ h
    obtain ⟨hu, hge, hle⟩ := step_pc_bounds hs hstep
    obtain ⟨hge', hle'⟩ := ih u t hu hrun
    exact ⟨by omega, by omega⟩

/-- Settles O38: a RUNNING step goes on by one index or stops, and over a run the bounds add up. -/
theorem programCounterOnlyAdvances : Obligations.ProgramCounterOnlyAdvances := by
  refine ⟨fun s t hs h => ?_, run_pc_bounds⟩
  rcases advances_or_stops hs h with ht | ht
  · exact .inl ⟨ht.pc_eq, ht.status_eq⟩
  · exact .inr ⟨ht.pc_eq, ht.terminal, ht.data_eq⟩

end Sys2Proof.Machine

/-! PROOFS. Family other: the host's calls by phase (R120 to R126), the clock edge and the inert signals (R127), what reset leaves
(R190), and the parameters and the program as fixed (R9). -/

namespace Sys2Proof.Machine

/-! ### The host's calls -/

/-- Settles O45: each call tests the phase, then its arguments. -/
theorem hostMisuseIsRefused : Obligations.HostMisuseIsRefused := by
  refine ⟨fun s index word hs hrange => ?_, fun s address value hs hrange => ?_, fun s c hs hc => ?_, fun s hs => ?_,
    fun s hs => ?_⟩
  · rw [hostCall, if_pos hs, if_neg (by omega)]
  · rw [hostCall, if_pos hs, if_neg (by omega)]
  · cases c with
    | loadInstruction index word => exact hostCall_loadInstruction_of_ne_load hs index word
    | loadData address value => exact hostCall_loadData_of_ne_load hs address value
    | run => rw [hostCall, if_neg hs]
    | snapshotRegisters => exact absurd rfl hc
  · rw [hostCall, if_pos hs]
  · rw [hostCall, if_neg hs]

theorem hostCall_run_of_load {s : State} (hs : s.status = .load) : hostCall .run s = .next s.runCall := by
  rw [hostCall, if_pos hs]

/-- What `run()` reports is the status, read as an outcome (R124). -/
theorem State.runResult_iff (s : State) :
    (s.runResult = some (.ok ()) ↔ s.Successful) ∧
    (s.runResult = some (.error .undefinedOpcode) ↔ s.status = .errUndefinedOpcode) ∧
    (s.runResult = some (.error .programOverrun) ↔ s.status = .errProgramOverrun) := by
  cases hs : s.status <;> simp [State.runResult, State.Successful, hs]

/-- Settles O46: the loop ends in a terminal state, whose status is what `run()` reports. -/
theorem runCallReturnsItsOutcome : Obligations.RunCallReturnsItsOutcome := by
  intro s hs
  obtain ⟨-, hterminal, -⟩ := runCall_reaches s
  exact ⟨_, hostCall_run_of_load hs, hterminal, s.runCall.runResult_iff⟩

/-! ### The clock edge, by phase -/

/-- A state with both load ports honoured. -/
def State.portsLoaded (s : State) (p : PortsIn) : State := (s.portLoadInstr p.ldI).portLoadData p.ldD

theorem clockEdge_of_rst {p : PortsIn} (hp : p.rst = true) (s : State) :
    clockEdge p s = .next (State.resetWith s.params) := by
  rw [clockEdge, if_pos hp]

theorem clockEdge_of_running {p : PortsIn} {s : State} (hp : p.rst = false) (hs : s.status = .running) :
    clockEdge p s = step s := by
  simp only [clockEdge, hp, hs, Bool.false_eq_true, if_false]

theorem clockEdge_of_load {p : PortsIn} {s : State} (hp : p.rst = false) (hs : s.status = .load) :
    clockEdge p s = .next (if p.start then (s.portsLoaded p).launch else s.portsLoaded p) := by
  simp only [clockEdge, hp, hs, Bool.false_eq_true, if_false, State.portsLoaded]

theorem clockEdge_of_terminal {p : PortsIn} {s : State} (hp : p.rst = false) (hs : s.Terminal) :
    clockEdge p s = .next s := by
  obtain ⟨hload, hrunning⟩ := (Status.terminal_iff _).mp hs
  cases h : s.status with
  | load => exact absurd h hload
  | running => exact absurd h hrunning
  | done | errUndefinedOpcode | errProgramOverrun => simp only [clockEdge, hp, h, Bool.false_eq_true, if_false]

/-- Everything a clock edge does when it answers a next state. -/
theorem clockEdge_cases {p : PortsIn} {s t : State} (h : clockEdge p s = .next t) :
    t = State.resetWith s.params ∨ (s.status = .load ∧ t = s.portsLoaded p) ∨
    (s.status = .load ∧ t = (s.portsLoaded p).launch) ∨ step s = .next t ∨ t = s := by
  cases hp : p.rst with
  | true =>
    rw [clockEdge_of_rst hp] at h
    cases h
    exact .inl rfl
  | false =>
    by_cases hload : s.status = .load
    · rw [clockEdge_of_load hp hload] at h
      cases h
      cases p.start with
      | true => exact .inr (.inr (.inl ⟨hload, rfl⟩))
      | false => exact .inr (.inl ⟨hload, rfl⟩)
    by_cases hrunning : s.status = .running
    · rw [clockEdge_of_running hp hrunning] at h
      exact .inr (.inr (.inr (.inl h)))
    · rw [clockEdge_of_terminal hp ((Status.terminal_iff _).mpr ⟨hload, hrunning⟩)] at h
      cases h
      exact .inr (.inr (.inr (.inr rfl)))

/-- The load ports write no register, set the word and the cell they name, and leave `pc` and status. -/
theorem State.portsLoaded_spec (s : State) (p : PortsIn) :
    SameRegs s (s.portsLoaded p) ∧
    (∀ i : Nat, (s.portsLoaded p).instrAt i = match p.ldI with
      | none => s.instrAt i
      | some (index, word) => if i = index.toNat then word else s.instrAt i) ∧
    (∀ a : Byte, (s.portsLoaded p).memRead a = match p.ldD with
      | none => s.memRead a
      | some (address, value) => if a = address then value else s.memRead a) ∧
    (s.portsLoaded p).status = s.status ∧ (s.portsLoaded p).pc = s.pc := by
  obtain ⟨rst, start, ldI, ldD⟩ := p
  cases ldI with
  | none =>
    cases ldD with
    | none => exact ⟨fun _ => rfl, fun _ => rfl, fun _ => rfl, rfl, rfl⟩
    | some d => exact ⟨fun _ => rfl, fun _ => rfl, s.memRead_memWrite d.1 d.2, rfl, rfl⟩
  | some iw =>
    cases ldD with
    | none => exact ⟨fun _ => rfl, s.instrAt_setInstr iw.1.toNat iw.2, fun _ => rfl, rfl, rfl⟩
    | some d =>
      exact ⟨fun _ => rfl, s.instrAt_setInstr iw.1.toNat iw.2,
        (s.setInstr iw.1.toNat iw.2).memRead_memWrite d.1 d.2, rfl, rfl⟩

/-- Settles O47: one equation per phase; in LOAD the ports are two writes, and a launch changes `pc` and status alone. -/
theorem clockEdgeHonoursPortsByPhase : Obligations.ClockEdgeHonoursPortsByPhase := by
  refine fun p s => ⟨fun hp => clockEdge_of_rst hp s, clockEdge_of_running, fun hp hs => ⟨_, clockEdge_of_load hp hs, ?_⟩,
    clockEdge_of_terminal⟩
  obtain ⟨hregs, hinstr, hdata, hstatus, hpc⟩ := s.portsLoaded_spec p
  cases hstart : p.start with
  | true => exact ⟨hregs, hinstr, hdata, fun _ => ⟨rfl, rfl⟩, Bool.noConfusion⟩
  | false => exact ⟨hregs, hinstr, hdata, Bool.noConfusion, fun _ => ⟨hstatus.trans hs, hpc⟩⟩

/-- Settles O42: an error state is terminal, so it has no step, no call but a snapshot and no edge but `rst`. -/
theorem resetIsTheOnlyWayOutOfAnError : Obligations.ResetIsTheOnlyWayOutOfAnError := by
  intro s hs
  have hterminal : s.Terminal := by
    rcases hs with hs | hs <;> rw [State.Terminal, hs] <;> rfl
  have hload : s.status ≠ .load := ((Status.terminal_iff _).mp hterminal).1
  refine ⟨fun t h => ?_, fun c t h => ?_, fun p hp => clockEdge_of_terminal hp hterminal, fun p hp => clockEdge_of_rst hp s⟩
  · rw [step_of_terminal hterminal] at h
    cases h
  · rcases hostCall_cases h with ⟨_, _, -, hphase, -⟩ | ⟨_, _, -, hphase, -⟩ | ⟨-, hphase, -⟩ | ⟨-, -, rfl⟩
    · exact absurd hphase hload
    · exact absurd hphase hload
    · exact absurd hphase hload
    · rfl

/-! ### The inert signals -/

/-- While a word with a row is at `pc` the signals are that row's, with the ALU's flags for the word's fields. -/
theorem State.signals_of_lookup_eq_some {s : State} {k : Mnemonic} (hs : s.status = .running) (hpc : s.pc.val < 256)
    (hw : s.instrAt s.pc.val ≠ sentinelWord)
    (hrow : s.params.opcodeMap.lookup (fields (s.instrAt s.pc.val)).opcode = some k) :
    s.signals = some ⟨(controlRow k).branch, (controlRow k).jump,
      (aluStage (controlRow k) (fields (s.instrAt s.pc.val)) s.data).zero,
      (aluStage (controlRow k) (fields (s.instrAt s.pc.val)) s.data).carryOut⟩ := by
  simp only [State.signals, if_pos (And.intro hs (And.intro hpc hw)), controlUnit_of_lookup_eq_some hrow]

/-- An instruction decoded at `pc` names the row and the fields of the word there. -/
theorem State.signals_of_decode {s : State} {i : Instr} {k : Mnemonic} (hs : s.status = .running) (hpc : s.pc.val < 256)
    (hi : decodeWith s.params.opcodeMap (s.instrAt s.pc.val) = .ok i) (hk : i.mnemonic? = some k) :
    i = instrOfFields k (s.instrAt s.pc.val) ∧
    s.signals = some ⟨(controlRow k).branch, (controlRow k).jump,
      (aluStage (controlRow k) (fields (s.instrAt s.pc.val)) s.data).zero,
      (aluStage (controlRow k) (fields (s.instrAt s.pc.val)) s.data).carryOut⟩ := by
  have hw : s.instrAt s.pc.val ≠ sentinelWord := by
    intro hw
    rw [hw, decodeWith_sentinelWord] at hi
    cases hi
    cases hk
  obtain ⟨k', hrow, rfl⟩ := exists_lookup_of_decodeWith_eq_ok hw hi
  obtain rfl : k' = k := Option.some.inj ((instrOfFields_mnemonic? k' _).symm.trans hk)
  exact ⟨rfl, State.signals_of_lookup_eq_some hs hpc hw hrow⟩

/-- Settles O48: BEQ's row raises `branch` and subtracts its operands; J's raises `jump` over the ALU's free values. -/
theorem controlInstructionsRaiseTheirSignals : Obligations.ControlInstructionsRaiseTheirSignals := by
  refine fun s hs hpc => ⟨fun rs rt g hi => ?_, fun g hi => ?_⟩
  · obtain ⟨hfields, hsignals⟩ := State.signals_of_decode hs hpc hi rfl
    obtain ⟨rfl, rfl, -⟩ := Instr.beq.inj hfields
    rw [hsignals, Option.some.injEq, Signals.mk.injEq]
    refine ⟨rfl, rfl, ?_, rfl⟩
    rw [Bool.eq_iff_iff, decide_eq_true_iff]
    exact alu_sub_zero_eq_true_iff _ _
  · obtain ⟨-, hsignals⟩ := State.signals_of_decode hs hpc hi rfl
    exact ⟨_, _, hsignals⟩

/-! ### Reset -/

/-- Settles O49: reset sets every field of the state, and an empty list reads as the fill value. -/
theorem resetLeavesTheDefaults : Obligations.ResetLeavesTheDefaults := by
  refine ⟨fun p => ⟨rfl, rfl, fun _ => rfl, fun _ => rfl, fun _ => rfl, rfl⟩, rfl, rfl, fun r => ?_, fun _ => rfl, fun _ => rfl⟩
  cases r <;> rfl

/-! ### Parameters and program -/

theorem underSetup_eq_next_iff {u : Setup} {o : Host.Outcome RunState Fault Refusal} {t : State} :
    underSetup u o = .next t ↔ t.toSetup = u ∧ o = .next t.toRunState := by
  cases o with
  | next r =>
    constructor
    · intro h
      cases h
      exact ⟨rfl, rfl⟩
    · rintro ⟨rfl, h⟩
      cases h
      rfl
  | fault r => simp [underSetup]
  | refused r => simp [underSetup]

theorem hostCall_params_imem {c : HostCall} {s t : State} (h : hostCall c s = .next t) :
    t.params = s.params ∧ ((∀ index word, c ≠ .loadInstruction index word) → t.imem = s.imem) := by
  rcases hostCall_cases h with ⟨index, word, hc, -, -, -, rfl⟩ | ⟨address, value, -, -, -, -, rfl⟩ | ⟨-, -, rfl⟩ | ⟨-, -, rfl⟩
  · exact ⟨rfl, fun hne => absurd hc (hne index word)⟩
  · exact ⟨rfl, fun _ => rfl⟩
  · exact ⟨congrArg Setup.params (runCall_toSetup s), fun _ => congrArg Setup.imem (runCall_toSetup s)⟩
  · exact ⟨rfl, fun _ => rfl⟩

theorem State.portsLoaded_params (s : State) (p : PortsIn) : (s.portsLoaded p).params = s.params := by
  obtain ⟨rst, start, _ | _, _ | _⟩ := p <;> rfl

theorem clockEdge_params {p : PortsIn} {s t : State} (h : clockEdge p s = .next t) : t.params = s.params := by
  rcases clockEdge_cases h with rfl | ⟨-, rfl⟩ | ⟨-, rfl⟩ | hstep | rfl
  · rfl
  · exact s.portsLoaded_params p
  · exact s.portsLoaded_params p
  · exact congrArg Setup.params (step_toSetup hstep)
  · rfl

/-- Settles O55: instructions, steps and by induction runs keep the setup; `step` is `runStep` put back beside it; the host and
the clock edge by their cases. -/
theorem parametersAndProgramAreFixed : Obligations.ParametersAndProgramAreFixed :=
  ⟨fun _ _ _ h => exec_toSetup h, fun _ _ _ h => run_toSetup h, fun _ _ => underSetup_eq_next_iff,
    fun _ _ _ h => hostCall_params_imem h, fun _ _ _ h => clockEdge_params h⟩

end Sys2Proof.Machine

/-! PROOFS. Family other: the machine's invariant, from reset through steps, host calls and clock edges, and the canonical form of
a memory (notes/assumptions/8.md). -/

namespace Sys2Proof.Machine

/-! ### The invariant at reset and through a step -/

/-- Settles O50: reset memories are empty, so canonical, and `pc` is at the start. -/
theorem resetMeetsTheInvariant : Obligations.ResetMeetsTheInvariant := by
  have hreset : ∀ p : Params, p.opcodeMap.valid = true → (State.resetWith p).Inv := fun p hp =>
    ⟨hp, State.resetWith_dmem_wf p, State.resetWith_imem_wf p, rfl⟩
  exact ⟨hreset defaultParams defaultOpcodeMap_valid, hreset⟩

/-- Every instruction keeps the data memory canonical: SW writes inside it, the others not at all. -/
theorem exec_dmem_wf {i : Instr} {s t : State} (hm : Memory.wf s.params.dmemFill 256 s.dmem) (h : exec i s = .next t) :
    Memory.wf s.params.dmemFill 256 t.dmem := by
  rcases exec_cases i s with ⟨d, v, hexec, -⟩ | ⟨rs, rt, imm, -, hexec⟩ | ⟨hexec, -⟩ | ⟨-, hexec⟩ <;>
    cases hexec.symm.trans h
  · exact hm
  · exact DMem.wf_write _ _ hm
  · exact hm
  · exact hm

theorem step_dmem_wf {s t : State} (hm : Memory.wf s.params.dmemFill 256 s.dmem) (h : step s = .next t) :
    Memory.wf s.params.dmemFill 256 t.dmem := by
  rcases step_cases s with ⟨-, hstep⟩ | ⟨-, -, hstep⟩ | ⟨i, -, -, -, hstep⟩ | ⟨e, -, -, -, hstep⟩ | ⟨-, hstep⟩
  · cases hstep.symm.trans h; exact hm
  · cases hstep.symm.trans h; exact hm
  · exact exec_dmem_wf hm (hstep.symm.trans h)
  · cases hstep.symm.trans h; exact hm
  · cases hstep.symm.trans h

theorem State.stopConsistent_of_running {s : State} (hs : s.status = .running) : s.StopConsistent := by
  simp only [State.StopConsistent, hs]

theorem State.stopConsistent_of_load {s : State} (hs : s.status = .load) : s.StopConsistent ↔ s.pc = pcStart := by
  simp only [State.StopConsistent, hs]

/-- The launch and a word executed leave the machine RUNNING; what ends the run says why. -/
theorem step_stopConsistent {s t : State} (h : step s = .next t) : t.StopConsistent := by
  by_cases hload : s.status = .load
  · rw [step_of_load hload] at h
    cases h
    exact State.stopConsistent_of_running rfl
  by_cases hrunning : s.status = .running
  · rcases advances_or_stops hrunning h with ht | ht
    · exact State.stopConsistent_of_running ht.status_eq
    · exact ht.consistent
  · rw [step_of_terminal ((Status.terminal_iff _).mpr ⟨hload, hrunning⟩)] at h
    cases h

/-- Settles O51: a step keeps the setup and the canonical data memory, and where it leaves the machine agrees with the status. -/
theorem everyStepKeepsTheInvariant : Obligations.EveryStepKeepsTheInvariant := by
  rintro s t ⟨hvalid, hdmem, himem, -⟩ h
  have hparams : t.params = s.params := congrArg Setup.params (step_toSetup h)
  refine ⟨?_, ?_, ?_, step_stopConsistent h⟩
  · rw [hparams]; exact hvalid
  · rw [hparams]; exact step_dmem_wf hdmem h
  · rw [hparams, step_imem h]; exact himem

/-! ### The invariant through the host's calls and a clock edge -/

theorem State.Inv.setInstr {s : State} (h : s.Inv) (hs : s.status = .load) {i : Nat} (hi : i < 256) (w : Word) :
    (s.setInstr i w).Inv := by
  obtain ⟨hvalid, hdmem, himem, hstop⟩ := h
  have hload : (s.setInstr i w).status = .load := hs
  have hstart : s.pc = pcStart := (State.stopConsistent_of_load hs).mp hstop
  exact ⟨hvalid, hdmem, State.wf_setInstr w hi himem, (State.stopConsistent_of_load hload).mpr hstart⟩

theorem State.Inv.memWrite {s : State} (h : s.Inv) (a v : Byte) : (s.memWrite a v).Inv := by
  obtain ⟨hvalid, hdmem, himem, hstop⟩ := h
  exact ⟨hvalid, DMem.wf_write a v hdmem, himem, hstop⟩

theorem State.Inv.launch {s : State} (h : s.Inv) : s.launch.Inv := by
  obtain ⟨hvalid, hdmem, himem, -⟩ := h
  exact ⟨hvalid, hdmem, himem, State.stopConsistent_of_running rfl⟩

/-- `run()` is a number of steps after the launch, each of which keeps the invariant. -/
theorem State.Inv.runCall {s : State} (h : s.Inv) : s.runCall.Inv := by
  obtain ⟨⟨k, -, hrun⟩, -⟩ := runCall_reaches s
  exact run_induction everyStepKeepsTheInvariant k s.launch s.runCall h.launch hrun

theorem State.Inv.portsLoaded {s : State} (h : s.Inv) (hs : s.status = .load) (p : PortsIn) : (s.portsLoaded p).Inv := by
  obtain ⟨rst, start, ldI, ldD⟩ := p
  have hloaded : (s.portLoadInstr ldI).Inv := by
    cases ldI with
    | none => exact h
    | some iw => exact h.setInstr hs iw.1.isLt iw.2
  cases ldD with
  | none => exact hloaded
  | some d => exact hloaded.memWrite d.1 d.2

/-- Settles O52: the load calls and ports write inside the memories and leave LOAD at the start; the rest are steps, or
reset. -/
theorem hostAndClockKeepTheInvariant : Obligations.HostAndClockKeepTheInvariant := by
  refine ⟨fun c s t hinv h => ?_, fun p s t hinv h => ?_⟩
  · rcases hostCall_cases h with ⟨index, word, -, hs, hindex, -, rfl⟩ | ⟨address, value, -, -, -, -, rfl⟩ | ⟨-, -, rfl⟩ |
      ⟨-, -, rfl⟩
    · exact hinv.setInstr hs hindex _
    · exact hinv.memWrite _ _
    · exact hinv.runCall
    · exact hinv
  · rcases clockEdge_cases h with rfl | ⟨hs, rfl⟩ | ⟨hs, rfl⟩ | hstep | rfl
    · exact resetMeetsTheInvariant.2 s.params hinv.1
    · exact hinv.portsLoaded hs p
    · exact (hinv.portsLoaded hs p).launch
    · exact everyStepKeepsTheInvariant s t hinv hstep
    · exact hinv

/-! ### The canonical form -/

section Memories

variable {w size : Nat} {fill : BitVec w}

theorem Memory.read_of_not_listed {m : List (Nat × BitVec w)} {a : Nat} (h : ∀ c ∈ m, c.1 ≠ a) :
    Memory.read fill m a = fill := by
  induction m with
  | nil => rfl
  | cons c rest ih =>
    rw [Memory.read, if_neg (h c (List.mem_cons_self ..)), ih fun d hd => h d (List.mem_cons_of_mem c hd)]

theorem Memory.read_cons_same (k : Nat) (v : BitVec w) (rest : List (Nat × BitVec w)) :
    Memory.read fill ((k, v) :: rest) k = v := by
  rw [Memory.read, if_pos rfl]

theorem Memory.read_cons_other {k a : Nat} (ha : k ≠ a) (v : BitVec w) (rest : List (Nat × BitVec w)) :
    Memory.read fill ((k, v) :: rest) a = Memory.read fill rest a := by
  rw [Memory.read, if_neg ha]

/-- The parts of a canonical list: its first cell is inside and off the fill value, the others stand above it. -/
theorem Memory.wf_cons {k : Nat} {v : BitVec w} {rest : List (Nat × BitVec w)}
    (h : Memory.wf fill size ((k, v) :: rest)) : v ≠ fill ∧ (∀ c ∈ rest, k < c.1) ∧ Memory.wf fill size rest := by
  obtain ⟨hrising, hcells⟩ := h
  obtain ⟨hhead, htail⟩ := List.pairwise_cons.mp hrising
  exact ⟨(hcells (k, v) (List.mem_cons_self ..)).2, hhead, htail, fun c hc => hcells c (List.mem_cons_of_mem _ hc)⟩

/-- Below its first cell a canonical list reads as the fill value. -/
theorem Memory.read_below {k : Nat} {v : BitVec w} {rest : List (Nat × BitVec w)}
    (h : Memory.wf fill size ((k, v) :: rest)) {a : Nat} (ha : a < k) : Memory.read fill ((k, v) :: rest) a = fill := by
  obtain ⟨-, habove, -⟩ := Memory.wf_cons h
  rw [Memory.read_cons_other (Nat.ne_of_gt ha)]
  exact Memory.read_of_not_listed fun c hc => Nat.ne_of_gt (Nat.lt_trans ha (habove c hc))

/-- A canonical list that reads as the fill value everywhere is empty: its first cell would not. -/
theorem Memory.eq_nil_of_reads_fill {m : List (Nat × BitVec w)} (h : Memory.wf fill size m)
    (hread : ∀ a, Memory.read fill m a = fill) : m = [] := by
  cases m with
  | nil => rfl
  | cons c rest =>
    have hfill := hread c.1
    rw [Memory.read_cons_same] at hfill
    exact absurd hfill (Memory.wf_cons h).1

/-- The first cell's address is where a canonical list first differs from the fill value. -/
theorem Memory.first_address_le {k k' : Nat} {v v' : BitVec w} {rest rest' : List (Nat × BitVec w)}
    (h : Memory.wf fill size ((k, v) :: rest)) (h' : Memory.wf fill size ((k', v') :: rest'))
    (hread : ∀ a, Memory.read fill ((k, v) :: rest) a = Memory.read fill ((k', v') :: rest') a) : k' ≤ k := by
  by_contra hlt
  have hfill : v = fill := by
    rw [← Memory.read_cons_same (fill := fill) k v rest, hread, Memory.read_below h' (Nat.lt_of_not_le hlt)]
  exact (Memory.wf_cons h).1 hfill

/-- Canonical lists that read alike are equal: they have the same first cell, and without it they still read alike. -/
theorem Memory.eq_of_reads_eq {m m' : List (Nat × BitVec w)} (h : Memory.wf fill size m) (h' : Memory.wf fill size m')
    (hread : ∀ a, Memory.read fill m a = Memory.read fill m' a) : m = m' := by
  induction m generalizing m' with
  | nil => exact (Memory.eq_nil_of_reads_fill h' fun a => (hread a).symm).symm
  | cons c rest ih =>
    cases m' with
    | nil => exact Memory.eq_nil_of_reads_fill h hread
    | cons c' rest' =>
      obtain ⟨k, v⟩ := c
      obtain ⟨k', v'⟩ := c'
      obtain rfl : k = k' :=
        Nat.le_antisymm (Memory.first_address_le h' h fun a => (hread a).symm) (Memory.first_address_le h h' hread)
      obtain rfl : v = v' := by simpa only [Memory.read_cons_same] using hread k
      obtain ⟨-, habove, hrest⟩ := Memory.wf_cons h
      obtain ⟨-, habove', hrest'⟩ := Memory.wf_cons h'
      rw [ih hrest hrest' fun a => ?_]
      by_cases ha : k = a
      · subst ha
        rw [Memory.read_of_not_listed fun c hc => Nat.ne_of_gt (habove c hc),
          Memory.read_of_not_listed fun c hc => Nat.ne_of_gt (habove' c hc)]
      · simpa only [Memory.read_cons_other ha] using hread a

end Memories

/-- Settles O53: by induction over the two lists, whose first cells are the lowest address that reads off the fill value. -/
theorem canonicalMemoriesThatReadAlikeAreEqual : Obligations.CanonicalMemoriesThatReadAlikeAreEqual :=
  fun _ _ _ _ _ h h' hread => Memory.eq_of_reads_eq h h' hread

end Sys2Proof.Machine
